-- ==== Sys2Proof/Word.lean ====
section
/-! DEFINITION. The word types of the engine: bytes, the 7-bit address counter value, the DDRAM line number, and the
two directions a pointer can step in. -/

namespace Sys2Proof

/-- A byte is 8 bits, numbered 7 (most significant) down to 0 (R6). -/
abbrev Byte := BitVec 8

/-- A value of the address counter: `AC_WIDTH` is 7 bits (R5, R25). -/
abbrev Addr := BitVec 7

/-- A DDRAM line: one of the two 40-byte sub-ranges of display memory (R5 `N_LINES`, R11). -/
abbrev Line := Fin 2

/-- The direction of a one-step move: the `dir` of `ADV` and `SHMOVE`, +1 or -1 (R59, R61). -/
inductive Dir where
  | inc
  | dec
deriving DecidableEq, Repr

end Sys2Proof
end

