-- ==== Sys2Proof/Config.lean ====
section
/-! DEFINITION. What is fixed when an engine is built: the constants of R5, the raw record of construction
parameters, and the external glyph table, a function without a body. -/

namespace Sys2Proof

/-- `MAX_COLS`: the largest screen width (R5). -/
@[simp] abbrev maxCols : Nat := 40
/-- `LINE_CAP`: bytes per DDRAM line (R5). -/
@[simp] abbrev lineCap : Nat := 40
/-- `N_LINES`: DDRAM lines, whatever the geometry (R5). -/
@[simp] abbrev nLines : Nat := 2
/-- `DDRAM_SIZE` = `N_LINES * LINE_CAP` (R5). -/
@[simp] abbrev ddramSize : Nat := 80
/-- `N_SLOTS`: custom glyph slots (R5). -/
@[simp] abbrev nSlots : Nat := 8
/-- `GLYPH_W`: glyph width in pixels (R5). -/
@[simp] abbrev glyphW : Nat := 5
/-- `GLYPH_H`: glyph height in pixels (R5). -/
@[simp] abbrev glyphH : Nat := 8
/-- `CGRAM_SIZE` = `N_SLOTS * GLYPH_H` (R5). -/
@[simp] abbrev cgramSize : Nat := 64
/-- Wires of each query operand port. R82 asks for "at least 8 and 6 bits", wide enough for the raster.
DESIGN CHOICE, log 9. -/
@[simp] abbrev queryPortBits : Nat := 16

/-- The glyph set selection strap (R33). -/
inductive Rom where
  /-- `ROM_A`, "Japanese-aligned". -/
  | romA
  /-- `ROM_B`, "European-aligned". -/
  | romB
deriving DecidableEq, Repr

/-- One entry of the screen-row tables: `ROW_LINE[r]` and `ROW_COL0[r]` (R5, R51). -/
structure ScreenRow where
  /-- `ROW_LINE[r]`: the DDRAM line shown on this screen row. -/
  line : Line
  /-- `ROW_COL0[r]`: the DDRAM column at the left edge when the viewport is not shifted. -/
  col0 : Nat
deriving DecidableEq, Repr

/-- The construction parameters of R5 as the host hands them over, not yet checked (R21). -/
structure RawConfig where
  /-- `W`: characters per screen row. -/
  w : Nat
  /-- `H`: screen rows. -/
  h : Nat
  /-- `ROM`: the glyph set. -/
  rom : Rom
  /-- `MAX_ROWS`: 2, or 4 when the 4-row table is supplied (D24). -/
  maxRows : Nat
  /-- `LINE_BASE[0]`. -/
  lineBase0 : Nat
  /-- `LINE_BASE[1]`. -/
  lineBase1 : Nat
  /-- `ROW_LINE` and `ROW_COL0`, one entry a screen row. -/
  rows : List ScreenRow
  /-- `GAP_X`: pixel columns between neighbouring cells (D18). -/
  gapX : Nat
  /-- `GAP_Y`: pixel rows between neighbouring cells (D18). -/
  gapY : Nat
  /-- `BLANK`: the code CLEAR fills display memory with (D3). -/
  blank : Byte
  /-- `DDRAM_RESET_BYTE`: every byte of display memory after reset (D2). -/
  ddramResetByte : Byte
deriving DecidableEq, Repr

/-- `ROMPIX(rom, code, col, row)`, the external glyph table: total and constant, column 0 leftmost, row 0 top, and
nothing more is known of it (R168, U10). No body, so no proof can see a glyph. Log 8. -/
opaque Config.romPix : Rom → Byte → Fin 5 → Fin 8 → Bool

end Sys2Proof
end

