-- ==== Sys2Proof/Syntax.lean ====
section
/-! DEFINITION. The twenty instructions of R84, one constructor each, and the words the two ports carry (R80, R82). -/

namespace Sys2Proof

/-- The LCD command set (R84). Bits the hardware ignores are no operands: "all settings of the ignored bits are the
same instruction" (U3). -/
inductive Instr where
  /-- SETDD a: set DDRAM address (R100). -/
  | setdd (a : BitVec 7)
  /-- SETCG a: set CGRAM address (R101). -/
  | setcg (a : BitVec 6)
  /-- RSVD5: the reserved command bytes 0x20..0x3F (R133). -/
  | rsvd5
  /-- CURL: cursor shift left (R110). -/
  | curl
  /-- CURR: cursor shift right (R111). -/
  | curr
  /-- DSPL: display shift left (R112). -/
  | dspl
  /-- DSPR: display shift right (R113). -/
  | dspr
  /-- DISPCTL d,c,b: display control (R120). -/
  | dispctl (d c b : Bool)
  /-- ENTRY i,s: entry mode set (R121). -/
  | entry (i s : Bool)
  /-- HOME: return home (R130). -/
  | home
  /-- CLEAR: clear display (R131). -/
  | clear
  /-- NOP: the all-zero command byte (R132). -/
  | nop
  /-- RADDR: address read (R144). -/
  | raddr
  /-- WDATA v: data write (R140). -/
  | wdata (v : BitVec 8)
  /-- RDATA: data read (R143). -/
  | rdata
  /-- QNPX: raster width (R155). -/
  | qnpx
  /-- QNPY: raster height (R156). -/
  | qnpy
  /-- QGEOM x,y: geometry query; the operands are unsigned naturals (R86, R157). -/
  | qgeom (x y : Nat)
  /-- QPIX px,py,bp: pixel state; raster coordinates and the blink phase (R165). -/
  | qpix (px py : Nat) (bp : Bool)
  /-- QUPD: the refresh hook (R175). -/
  | qupd
deriving DecidableEq, Repr

/-- What the host presents in one step: a transaction word on the bus port, `RS RW DB7..DB0` in bits 9..0 (R80), or a
query on the query port, `QSEL` with the wires of its operands (R82; 16 wires each, log 9). -/
inductive PortWord where
  | bus (w : BitVec 10)
  | query (qsel : BitVec 3) (qx qy : BitVec 16) (bp : Bool)
deriving DecidableEq, Repr

end Sys2Proof
end

