-- ==== Sys2Proof/WellFormed.lean ====
section
/-! DEFINITION. Which instructions the ports can carry: every operand of a bus instruction has its exact width by type;
a query operand is a natural number, and it fits the wires of its port or it has no encoding (R82, R86). -/

namespace Sys2Proof

/-- A query operand fits the wires of its port (R82). -/
def fitsPort (n : Nat) : Bool := decide (n < 2 ^ queryPortBits)

/-- The instruction has an encoding on its port. -/
def Instr.wellFormed : Instr → Bool
  | .setdd _ => true
  | .setcg _ => true
  | .rsvd5 => true
  | .curl => true
  | .curr => true
  | .dspl => true
  | .dspr => true
  | .dispctl _ _ _ => true
  | .entry _ _ => true
  | .home => true
  | .clear => true
  | .nop => true
  | .raddr => true
  | .wdata _ => true
  | .rdata => true
  | .qnpx => true
  | .qnpy => true
  | .qgeom x y => fitsPort x && fitsPort y
  | .qpix px py _ => fitsPort px && fitsPort py
  | .qupd => true

end Sys2Proof
end

