-- ==== Sys2Proof/Decode.lean ====
section
/-! DEFINITION. The decoder: total on every word either port can carry, rejecting only the reserved query selects, by
name. After it the encoder, the opcode table as data, and the container the host's table words come in. -/

namespace Sys2Proof

/-- Why a port word is no instruction. -/
inductive DecodeError where
  /-- `QSEL` 0b101..0b111: no query stands there (R82, R87, U5). -/
  | reservedQuery (qsel : BitVec 3)
deriving DecidableEq, Repr

/-- The four shift commands by `sc = DB3` and `rl = DB2`; `DB[1:0]` ignored (R85 format SH, R110 to R113). -/
def decodeShift (db : Byte) : Instr :=
  match db.getLsbD 3, db.getLsbD 2 with
  | false, false => .curl
  | false, true => .curr
  | true, false => .dspl
  | true, true => .dspr

/-- Priority decode of a command byte: its bits are tested from bit 7 downward and the first one set selects the
command (R83). -/
def decodeCommand (db : Byte) : Instr :=
  if db.getLsbD 7 then .setdd (db.extractLsb' 0 7)
  else if db.getLsbD 6 then .setcg (db.extractLsb' 0 6)
  else if db.getLsbD 5 then .rsvd5
  else if db.getLsbD 4 then decodeShift db
  else if db.getLsbD 3 then .dispctl (db.getLsbD 2) (db.getLsbD 1) (db.getLsbD 0)
  else if db.getLsbD 2 then .entry (db.getLsbD 1) (db.getLsbD 0)
  else if db.getLsbD 1 then .home
  else if db.getLsbD 0 then .clear
  else .nop

/-- The four transaction classes by `RS RW` (R81). -/
def decodeBus (w : BitVec 10) : Instr :=
  let db : Byte := w.extractLsb' 0 8
  match w.getLsbD 9, w.getLsbD 8 with
  | false, false => decodeCommand db
  | false, true => .raddr
  | true, false => .wdata db
  | true, true => .rdata

/-- The query by `QSEL`; operands a query does not have are ignored (R82). -/
def decodeQuery (qsel : BitVec 3) (qx qy : BitVec 16) (bp : Bool) : Except DecodeError Instr :=
  if qsel = 0b000#3 then .ok .qnpx
  else if qsel = 0b001#3 then .ok .qnpy
  else if qsel = 0b010#3 then .ok (.qgeom qx.toNat qy.toNat)
  else if qsel = 0b011#3 then .ok (.qpix qx.toNat qy.toNat bp)
  else if qsel = 0b100#3 then .ok .qupd
  else .error (.reservedQuery qsel)

/-- The decoder. It looks at the word alone, never at the engine's state (R83, R88). -/
def decode : PortWord → Except DecodeError Instr
  | .bus w => .ok (decodeBus w)
  | .query qsel qx qy bp => decodeQuery qsel qx qy bp

/-- The command-write transaction that carries byte `b` (R81; the pseudo-instruction CMD of R90). -/
def PortWord.command (b : Byte) : PortWord := .bus (0b00#2 ++ b)

/-- A query without operands; the operand wires are low. -/
def PortWord.plainQuery (qsel : BitVec 3) : PortWord := .query qsel 0 0 false

/-- The one-bit field of a command byte. -/
def bit (x : Bool) : BitVec 1 := BitVec.ofBool x

/-- The words of a well-formed instruction, from the encoding column of R84 and the formats of R85; bits the hardware
ignores are sent low (log 26). -/
def encode : Instr → PortWord
  | .setdd a => .command (0b1#1 ++ a)
  | .setcg a => .command (0b01#2 ++ a)
  | .rsvd5 => .command 0b00100000#8
  | .curl => .command 0b00010000#8
  | .curr => .command 0b00010100#8
  | .dspl => .command 0b00011000#8
  | .dspr => .command 0b00011100#8
  | .dispctl d c b => .command (0b00001#5 ++ (bit d ++ (bit c ++ bit b)))
  | .entry i s => .command (0b000001#6 ++ (bit i ++ bit s))
  | .home => .command 0b00000010#8
  | .clear => .command 0b00000001#8
  | .nop => .command 0b00000000#8
  | .raddr => .bus (0b01#2 ++ 0#8)
  | .wdata v => .bus (0b10#2 ++ v)
  | .rdata => .bus (0b11#2 ++ 0#8)
  | .qnpx => .plainQuery 0b000#3
  | .qnpy => .plainQuery 0b001#3
  | .qgeom x y => .query 0b010#3 (BitVec.ofNat 16 x) (BitVec.ofNat 16 y) false
  | .qpix px py bp => .query 0b011#3 (BitVec.ofNat 16 px) (BitVec.ofNat 16 py) bp
  | .qupd => .plainQuery 0b100#3

/-- The mnemonic of R84. -/
def Instr.mnemonic : Instr → String
  | .setdd _ => "SETDD"
  | .setcg _ => "SETCG"
  | .rsvd5 => "RSVD5"
  | .curl => "CURL"
  | .curr => "CURR"
  | .dspl => "DSPL"
  | .dspr => "DSPR"
  | .dispctl _ _ _ => "DISPCTL"
  | .entry _ _ => "ENTRY"
  | .home => "HOME"
  | .clear => "CLEAR"
  | .nop => "NOP"
  | .raddr => "RADDR"
  | .wdata _ => "WDATA"
  | .rdata => "RDATA"
  | .qnpx => "QNPX"
  | .qnpy => "QNPY"
  | .qgeom _ _ => "QGEOM"
  | .qpix _ _ _ => "QPIX"
  | .qupd => "QUPD"

/-- One row of the opcode table: the words whose bits under `mask` are `pattern`. -/
structure OpcodeRow (width : Nat) where
  mnemonic : String
  pattern : BitVec width
  mask : BitVec width
deriving DecidableEq, Repr

/-- The word lies in the row. -/
def rowMatches {width : Nat} (r : OpcodeRow width) (w : BitVec width) : Bool := w &&& r.mask == r.pattern

/-- The fifteen bus rows of opcode_table.json (R84). -/
def busRows : List (OpcodeRow 10) :=
  [⟨"SETDD", 0x080, 0x380⟩, ⟨"SETCG", 0x040, 0x3C0⟩, ⟨"RSVD5", 0x020, 0x3E0⟩,
   ⟨"CURL", 0x010, 0x3FC⟩, ⟨"CURR", 0x014, 0x3FC⟩, ⟨"DSPL", 0x018, 0x3FC⟩, ⟨"DSPR", 0x01C, 0x3FC⟩] ++
  [⟨"DISPCTL", 0x008, 0x3F8⟩, ⟨"ENTRY", 0x004, 0x3FC⟩, ⟨"HOME", 0x002, 0x3FE⟩, ⟨"CLEAR", 0x001, 0x3FF⟩,
   ⟨"NOP", 0x000, 0x3FF⟩, ⟨"RADDR", 0x100, 0x300⟩, ⟨"WDATA", 0x200, 0x300⟩, ⟨"RDATA", 0x300, 0x300⟩]

/-- The five query rows of opcode_table.json (R82, R84). -/
def queryRows : List (OpcodeRow 3) :=
  [⟨"QNPX", 0, 7⟩, ⟨"QNPY", 1, 7⟩, ⟨"QGEOM", 2, 7⟩, ⟨"QPIX", 3, 7⟩, ⟨"QUPD", 4, 7⟩]

/-- The port word a table word stands for. The table's bus rows have 10 bits (two whole bytes) and its query rows 3
(one whole byte), so a word of at most 8 bits is a `QSEL` with its operand wires low, and a longer one a transaction
word; container bits above 3 or 10 reach no wire. Log 22. -/
def PortWord.ofTable (nbits w : Nat) : PortWord :=
  if nbits ≤ 8 then .plainQuery (BitVec.ofNat 3 w) else .bus (BitVec.ofNat 10 w)

/-- The instruction the decoder reads from a word numbered as opcode_table.json numbers it. -/
def decodeTableWord (nbits w : Nat) : Option Instr :=
  match decode (PortWord.ofTable nbits w) with
  | .ok i => some i
  | .error _ => none

end Sys2Proof
end

