-- ==== Sys2Proof/Machine/Tables.lean ====
section
/-! DEFINITION. Functions of the construction parameters: the address and row tables, the raster size, the
well-formedness check of R21 with the table constraints of R51, and the two parameter sets the spec names. -/

namespace Sys2Proof

/-- `LINE_BASE[l]` (R5). -/
def RawConfig.lineBase (c : RawConfig) (l : Line) : Nat :=
  if l = 0 then c.lineBase0 else c.lineBase1

/-- Entry `y` of the screen-row tables. Only rows `y < H` exist and only they are asked for (R63). -/
def RawConfig.row (c : RawConfig) (y : Nat) : ScreenRow :=
  c.rows.getD y ⟨0, 0⟩

/-- Horizontal pitch of the cells in pixels, 6 with the default gap (R166, R176). -/
def RawConfig.pitchX (c : RawConfig) : Nat := glyphW + c.gapX

/-- Vertical pitch of the cells in pixels, 9 with the default gap (R166, R176). -/
def RawConfig.pitchY (c : RawConfig) : Nat := glyphH + c.gapY

/-- `NPX = W * (GLYPH_W + GAP_X) - GAP_X` (R155). -/
def RawConfig.npx (c : RawConfig) : Nat := c.w * c.pitchX - c.gapX

/-- `NPY = H * (GLYPH_H + GAP_Y) - GAP_Y` (R156). -/
def RawConfig.npy (c : RawConfig) : Nat := c.h * c.pitchY - c.gapY

/-- The `w` columns from `a` and the `w` columns from `b` of one line are disjoint, columns modulo `LINE_CAP` (R51). -/
def columnsDisjoint (w a b : Nat) : Bool :=
  (List.range w).all fun x => (List.range w).all fun y =>
    (a + x) % lineCap != (b + y) % lineCap

/-- No two screen rows on the same line share a column (R51, last constraint). -/
def rowsDisjoint (w : Nat) : List ScreenRow → Bool
  | [] => true
  | r :: rest =>
    (rest.all fun r' => r.line != r'.line || columnsDisjoint w r.col0 r'.col0) && rowsDisjoint w rest

/-- The constraints of R51 on the address and row tables; one entry a screen row (log 31). -/
def RawConfig.tablesOk (c : RawConfig) : Bool :=
  c.lineBase0 == 0
    && decide (c.lineBase0 + lineCap ≤ c.lineBase1)
    && decide (c.lineBase1 + lineCap ≤ 128)
    && c.rows.length == c.h
    && (c.rows.all fun r => decide (r.col0 < lineCap))
    && rowsDisjoint c.w c.rows

/-- `WELLFORMED(W, H, ROM)` of R21, with `MAX_ROWS` 2 or 4 (D24, log 31). `ROM` is two-valued by type (R186). -/
def RawConfig.dimensionsOk (c : RawConfig) : Bool :=
  decide (1 ≤ c.w) && decide (c.w ≤ maxCols)
    && decide (1 ≤ c.h) && decide (c.h ≤ c.maxRows)
    && (c.maxRows == 2 || c.maxRows == 4)
    && (decide (c.h ≤ 2) || decide (2 * c.w ≤ lineCap))

/-- The query operand ports are "wide enough for the raster" (R82). Log 10. -/
def RawConfig.portsOk (c : RawConfig) : Bool :=
  decide (c.npx ≤ 2 ^ queryPortBits) && decide (c.npy ≤ 2 ^ queryPortBits)

/-- A well-formed configuration: R21, R51, and ports wide enough (R82). -/
def RawConfig.wellFormed (c : RawConfig) : Bool :=
  c.dimensionsOk && c.tablesOk && c.portsOk

/-- The parameters of an engine that exists: R186 asks for "a raw record plus a proof of the check". -/
structure Config where
  raw : RawConfig
  ok : raw.wellFormed = true
deriving DecidableEq, Repr

/-- The parameters of R5 with its default tables: two lines at 0x00 and 0x40, screen row r on line r, `MAX_ROWS` 2
(the reference configuration of D24). -/
def RawConfig.standard (w h : Nat) (rom : Rom) : RawConfig where
  w := w
  h := h
  rom := rom
  maxRows := 2
  lineBase0 := 0x00
  lineBase1 := 0x40
  rows := [⟨0, 0⟩, ⟨1, 0⟩].take h
  gapX := 1
  gapY := 1
  blank := 0x20#8
  ddramResetByte := 0x00#8

/-- The parameters with `MAX_ROWS` 4 and the default 4-row table of D24: `ROW_LINE = [0, 1, 0, 1]`,
`ROW_COL0 = [0, 0, W, W]`, the first `H` rows of it. -/
def RawConfig.fourRow (w h : Nat) (rom : Rom) : RawConfig :=
  { RawConfig.standard w h rom with
    maxRows := 4
    rows := [⟨0, 0⟩, ⟨1, 0⟩, ⟨0, w⟩, ⟨1, w⟩].take h }

/-- The reference configuration of 95_test_vectors.md: 16 x 2, `ROM_A`, default tables. Log 2. -/
def Config.reference : Config := ⟨RawConfig.standard 16 2 .romA, by decide⟩

end Sys2Proof
end

