-- ==== Sys2Proof/Machine/State.lean ====
section
/-! DEFINITION. The state of one engine as plain data: the ten items of R20, the constant configuration, the words the
host has presented, and what the last step drove on the output ports; and the state after reset (R39, R205). -/

namespace Sys2Proof.Machine

/-- The mode tag `MODE`: the bank data accesses use (R26). -/
inductive Mode where
  | ddram
  | cgram
deriving DecidableEq, Repr

/-- The two byte-addressed memories: `DD` and `CG` (R50). -/
inductive Bank where
  | dd
  | cg
deriving DecidableEq, Repr

/-- The three results of the pixel query (R11, R82). -/
inductive Pixel where
  | none
  | off
  | on
deriving DecidableEq, Repr

/-- The two failure conditions (R185). Neither is a trap. -/
inductive Condition where
  /-- Raised by construction; no engine exists (R186). -/
  | invalidDimensions
  /-- Raised by QGEOM; no state changes (R187). -/
  | outOfRange
deriving DecidableEq, Repr

/-- What one step drives on the output ports: `dout` of a read transaction, `qok` and `qout` of a query (R40, R81,
R82). -/
inductive Output where
  /-- Nothing: a command write or a data write (R81), or QUPD (R175, log 6). -/
  | undriven
  /-- `dout[7:0]` of RDATA or RADDR. -/
  | dout (b : Byte)
  /-- `qok = 1`, `qout` = a raster dimension (R155, R156). -/
  | size (n : Nat)
  /-- `qok = 1`, `qout` = a DDRAM address (R157). -/
  | addr (a : Addr)
  /-- `qok = 1`, `qout` = a pixel result (R165). -/
  | pixel (p : Pixel)
  /-- `qok = 0`: the query failed with this condition, and `qout` has no meaning (R158). -/
  | failed (c : Condition)
  /-- `qok = 0`: a reserved `QSEL` (R82, R87; log 7). -/
  | reserved
deriving DecidableEq, Repr

/-- Why the machine stops with a fault. -/
inductive Fault where
  /-- Raised by CURL, CURR, WDATA, RDATA (and the cell read of QPIX) when a display-memory address is no valid DDRAM
  address. R56: the memory primitives "are never called with an invalid address". Safe: the invariant of R36 rules it
  out, so no run from reset reaches it. Log 11. -/
  | ddAddressNotValid (a : Addr)
deriving DecidableEq, Repr

/-- Why the machine gives no next state without a fault. -/
inductive Refusal where
  /-- Raised by an arm of `exec` whose instruction has no meaning yet. Safe. -/
  | notModelled (mnemonic : String)
  /-- Raised by `step` when the host has presented nothing: a run "ends when the list does" (R203 (e)). Safe. Log 4. -/
  | noTransaction
deriving DecidableEq, Repr

/-- One bank's contents: (storage index, byte) cells, indices strictly rising, no cell equal to what an unlisted index
reads as. Log 25. -/
abbrev Memory := List Host.Cell

/-- One engine. -/
structure State where
  /-- The construction parameters; constant for a run (R5, R33). Log 1. -/
  cfg : Config
  /-- `DDRAM[0..79]`, keyed by storage index (R34). -/
  ddram : Memory
  /-- `CGRAM[0..63]`, keyed by storage index, which is the CGRAM address (R35). -/
  cgram : Memory
  /-- `AC`, the address counter (R25). -/
  ac : Addr
  /-- `MODE`, the mode tag (R26). -/
  mode : Mode
  /-- `ID`: 1 = increment (R27). -/
  id : Bool
  /-- `S`: 1 = shift enabled (R28). -/
  s : Bool
  /-- `D`: 1 = display on (R29). -/
  d : Bool
  /-- `C`: 1 = cursor visible (R30). -/
  c : Bool
  /-- `B`: 1 = cursor blink (R31). -/
  b : Bool
  /-- `SH`, the viewport shift, 0..39 (R32). -/
  sh : BitVec 6
  /-- The model's own: words presented and not yet taken, oldest first. Log 3. -/
  inbox : List PortWord
  /-- The model's own: what the last step drove; nothing reads it. Log 5. -/
  out : Output
deriving DecidableEq, Repr

/-- The engine right after construction with a well-formed configuration (R39, R205). Every unlisted DDRAM byte reads as
`DDRAM_RESET_BYTE` and every unlisted CGRAM byte as 0x00, so empty lists are the reset contents. -/
def State.init (cfg : Config) : State where
  cfg := cfg
  ddram := []
  cgram := []
  ac := 0
  mode := .ddram
  id := true
  s := false
  d := false
  c := false
  b := false
  sh := 0
  inbox := []
  out := .undriven

/-- The reference engine of 95_test_vectors.md right after reset. Log 2. -/
def State.reset : State := State.init Config.reference

end Sys2Proof.Machine
end

