-- ==== Sys2Proof/Machine/Ops.lean ====
section
/-! DEFINITION. The shared operations: cells of a bank in canonical form, the address functions of 20_memory.md, the
memory primitives, the updates of the state, and raising a failure condition. -/

namespace Sys2Proof.Machine

/-- What an instruction's meaning answers. -/
abbrev Result := Host.Outcome State Fault Refusal

/-- Go on with a value, or stop with the fault that stands in its place. -/
def withOk {α : Type} (x : Except Fault α) (k : α → Result) : Result :=
  match x with
  | .ok v => k v
  | .error f => .fault f

/-! ### One bank as a list of cells -/

/-- The byte at index `i`, where an unlisted index reads as `dflt`. -/
def Memory.read (dflt : Byte) : Memory → Nat → Byte
  | [], _ => dflt
  | (k, b) :: rest, i => if k = i then b else Memory.read dflt rest i

/-- Put `v` at the front of `rest` under index `i`, unless an unlisted `i` reads as `v` anyway. -/
def Memory.consCell (dflt : Byte) (i : Nat) (v : Byte) (rest : Memory) : Memory :=
  if v = dflt then rest else (i, v) :: rest

/-- Write `v` at index `i`, keeping the canonical form. -/
def Memory.write (dflt : Byte) : Memory → Nat → Byte → Memory
  | [], i, v => Memory.consCell dflt i v []
  | (k, b) :: rest, i, v =>
    if i < k then Memory.consCell dflt i v ((k, b) :: rest)
    else if i = k then Memory.consCell dflt i v rest
    else (k, b) :: Memory.write dflt rest i v

/-- Every one of the first `size` indices holds `v`. -/
def Memory.fill (dflt : Byte) (size : Nat) (v : Byte) : Memory :=
  if v = dflt then [] else (List.range size).map fun i => (i, v)

/-- Indices strictly rising from `lo` on and below `size`, no cell equal to `dflt`. -/
def Memory.wfFrom (dflt : Byte) (size : Nat) : Nat → Memory → Bool
  | _, [] => true
  | lo, (k, b) :: rest =>
    decide (lo ≤ k) && decide (k < size) && b != dflt && Memory.wfFrom dflt size (k + 1) rest

/-- The canonical form of a bank of `size` bytes. -/
def Memory.wf (dflt : Byte) (size : Nat) (m : Memory) : Bool := Memory.wfFrom dflt size 0 m

/-- What an unlisted index reads as: the bank's reset contents (R34, R35, R39). -/
def resetByte (c : RawConfig) : Bank → Byte
  | .dd => c.ddramResetByte
  | .cg => 0x00#8

/-- `DDRAM[i]` by storage index (R34). -/
def State.ddCell (s : State) (i : Nat) : Byte := Memory.read (resetByte s.cfg.raw .dd) s.ddram i

/-- `CGRAM[i]` (R35). -/
def State.cgCell (s : State) (i : Nat) : Byte := Memory.read (resetByte s.cfg.raw .cg) s.cgram i

/-! ### Address arithmetic -/

/-- +1 or -1 (R59). -/
def deltaOf : Dir → Int
  | .inc => 1
  | .dec => -1

/-- `(x + dir) mod n` with the floor modulus of R7. -/
def wrapStep (n x : Nat) (dir : Dir) : Nat := (((x : Int) + deltaOf dir) % (n : Int)).toNat

/-- `LINE_BASE[l] <= a < LINE_BASE[l] + LINE_CAP` (R52). -/
def inLine (c : RawConfig) (l : Line) (a : Addr) : Bool :=
  decide (c.lineBase l ≤ a.toNat) && decide (a.toNat < c.lineBase l + lineCap)

/-- `VALID_DD(a)` (R52). -/
def validDd (c : RawConfig) (a : Addr) : Bool := inLine c 0 a || inLine c 1 a

/-- `LINE_OF(a)`; none where `a` is no valid DDRAM address (R53). -/
def lineOf (c : RawConfig) (a : Addr) : Option Line :=
  if inLine c 0 a then some 0 else if inLine c 1 a then some 1 else none

/-- `COL_OF(a)` of an address in line `l` (R53). -/
def colOf (c : RawConfig) (l : Line) (a : Addr) : Nat := a.toNat - c.lineBase l

/-- `IDX(a)`, the storage index; none where `a` is no valid DDRAM address (R53). -/
def idx (c : RawConfig) (a : Addr) : Option Nat :=
  match lineOf c a with
  | some l => some (lineCap * l.val + colOf c l a)
  | none => none

/-- `NORM_DD(a7)`: the line of the greatest base not above the field, its column modulo `LINE_CAP` (R58). -/
def normDd (c : RawConfig) (a7 : BitVec 7) : Addr :=
  let l : Line := if c.lineBase 1 ≤ a7.toNat then 1 else 0
  BitVec.ofNat 7 (c.lineBase l + (a7.toNat - c.lineBase l) % lineCap)

/-- `ADV(ac, mode, dir)`: one step inside the line in DDRAM mode, inside the 64 bytes in CGRAM mode (R59). In DDRAM mode
it has a value only at a valid address (R36, log 11). -/
def adv (c : RawConfig) (ac : Addr) (mode : Mode) (dir : Dir) : Except Fault Addr :=
  match mode with
  | .cgram => .ok (BitVec.ofNat 7 (wrapStep cgramSize ac.toNat dir))
  | .ddram =>
    match lineOf c ac with
    | some l => .ok (BitVec.ofNat 7 (c.lineBase l + wrapStep lineCap (colOf c l ac) dir))
    | none => .error (.ddAddressNotValid ac)

/-- `SHMOVE(sh, dir)` (R61). -/
def shmove (sh : BitVec 6) (dir : Dir) : BitVec 6 := BitVec.ofNat 6 (wrapStep lineCap sh.toNat dir)

/-- `CELL_ADDR(x, y)`: the DDRAM address shown at screen column `x`, row `y` (R63). -/
def cellAddr (c : RawConfig) (sh : BitVec 6) (x y : Nat) : Addr :=
  BitVec.ofNat 7 (c.lineBase (c.row y).line + ((c.row y).col0 + x + sh.toNat) % lineCap)

/-! ### Updates of the state, one field group each -/

/-- Load the address counter. -/
def State.setAc (s : State) (a : Addr) : State := { s with ac := a }

/-- Load the address counter and the mode tag together (R62). -/
def State.point (s : State) (m : Mode) (a : Addr) : State := { s with mode := m, ac := a }

/-- Load the viewport shift. -/
def State.setSh (s : State) (v : BitVec 6) : State := { s with sh := v }

/-- Replace the contents of display memory. -/
def State.setDdram (s : State) (m : Memory) : State := { s with ddram := m }

/-- Replace the contents of custom-character memory. -/
def State.setCgram (s : State) (m : Memory) : State := { s with cgram := m }

/-- Record what this step drives on the output ports (R40). -/
def State.drive (s : State) (o : Output) : State := { s with out := o }

/-- Take the oldest word off the list of presented words, leaving `rest`. -/
def State.take (s : State) (rest : List PortWord) : State := { s with inbox := rest }

/-! ### The memory primitives and the conditions -/

/-- `MemRead((bank, a), 1)` (R56). The CGRAM address is `AC[5:0]` (R54, R140; log 12). -/
def State.memRead (s : State) (bank : Bank) (a : Addr) : Except Fault Byte :=
  match bank with
  | .cg => .ok (s.cgCell (a.toNat % cgramSize))
  | .dd =>
    match idx s.cfg.raw a with
    | some i => .ok (s.ddCell i)
    | none => .error (.ddAddressNotValid a)

/-- `MemWrite((bank, a), 1, v)` (R56). -/
def State.memWrite (s : State) (bank : Bank) (a : Addr) (v : Byte) : Except Fault State :=
  match bank with
  | .cg => .ok (s.setCgram (Memory.write (resetByte s.cfg.raw .cg) s.cgram (a.toNat % cgramSize) v))
  | .dd =>
    match idx s.cfg.raw a with
    | some i => .ok (s.setDdram (Memory.write (resetByte s.cfg.raw .dd) s.ddram i v))
    | none => .error (.ddAddressNotValid a)

/-- Write `v` into all 80 bytes of display memory, in one step (R66, R131). -/
def State.fillDdram (s : State) (v : Byte) : State :=
  s.setDdram (Memory.fill (resetByte s.cfg.raw .dd) ddramSize v)

/-- `raise <Condition>`: the step ends with the condition on its outputs (`qok = 0`) and no other change (R8, R158,
R192). This machine has no trap entry and no return from one. -/
def State.raise (s : State) (c : Condition) : Result := .next (s.drive (.failed c))

/-- The number of a condition (R185). -/
def conditionCode : Condition → Nat
  | .invalidDimensions => 1
  | .outOfRange => 2

/-- The 2-bit code of a pixel result on `qout`: OFF 0b00, ON 0b01, NONE 0b11 (R82). -/
def pixelCode : Pixel → BitVec 2
  | .off => 0b00#2
  | .on => 0b01#2
  | .none => 0b11#2

/-- The value on `dout[7:0]`, where this step drives it (R81). -/
def doutOf : Output → Option Byte
  | .dout b => some b
  | .undriven | .size _ | .addr _ | .pixel _ | .failed _ | .reserved => none

/-- The value on `qok`, where this step answers a query with a result or a failure (R82). -/
def qokOf : Output → Option Bool
  | .size _ | .addr _ | .pixel _ => some true
  | .failed _ | .reserved => some false
  | .undriven | .dout _ => none

/-- The number on `qout`, where `qok = 1`; when `qok = 0` there is no value at all (R82, R158, U16). -/
def qoutOf : Output → Option Nat
  | .size n => some n
  | .addr a => some a.toNat
  | .pixel p => some (pixelCode p).toNat
  | .undriven | .dout _ | .failed _ | .reserved => none

end Sys2Proof.Machine
end

