-- ==== Sys2Proof/Machine/Operands.lean ====
section
/-! DEFINITION. The operand forms: the three immediates of R86 and the one addressing mode of R146. -/

namespace Sys2Proof.Machine

/-- The 6-bit immediate of SETCG, zero-extended to the counter's 7 bits (R86 (b)). -/
def zext7 (a6 : BitVec 6) : Addr := 0b0#1 ++ a6

/-- The byte an address read returns: bit 7 is 0, there is no busy flag (R144, D23). -/
def addressByte (a : Addr) : Byte := 0b0#1 ++ a

/-- The bank a data access uses, by `MODE` alone (R57). -/
def bankOf : Mode → Bank
  | .ddram => .dd
  | .cgram => .cg

/-- `dir` of a data access: the direction `ID` names (R27, R140). -/
def State.entryDir (s : State) : Dir := if s.id then .inc else .dec

/-- The byte at the effective address of a data access: the value of `AC` before the step, in the bank of `MODE`
(R146). -/
def State.operand (s : State) : Except Fault Byte := s.memRead (bankOf s.mode) s.ac

/-- Store to the effective address of a data access (R146). -/
def State.storeOperand (s : State) (v : Byte) : Except Fault State := s.memWrite (bankOf s.mode) s.ac v

/-- The storage index of the effective address of a data access (R53, R54, R146). -/
def State.operandIndex (s : State) : Option Nat :=
  match s.mode with
  | .ddram => idx s.cfg.raw s.ac
  | .cgram => some (s.ac.toNat % cgramSize)

/-- Move the counter one step in its bank (R59): the advance WDATA, RDATA, CURL and CURR share, and nothing more
(R145). -/
def State.advance (s : State) (dir : Dir) : Except Fault State :=
  match adv s.cfg.raw s.ac s.mode dir with
  | .ok a => .ok (s.setAc a)
  | .error f => .error f

end Sys2Proof.Machine
end

