-- ==== Sys2Proof/Machine/Flags.lean ====
section
/-! DEFINITION. The five 1-bit control fields. The engine computes no condition codes (R24): a field changes only by the
command that loads it, or by CLEAR, which forces `ID`. -/

namespace Sys2Proof.Machine

/-- Load the display-control flags `D`, `C`, `B` (R120). -/
def State.setDisplay (s : State) (d c b : Bool) : State := { s with d := d, c := c, b := b }

/-- Load the entry-mode flags `ID`, `S` (R121). -/
def State.setEntry (s : State) (i sft : Bool) : State := { s with id := i, s := sft }

/-- Force the entry direction to increment, leaving `S` (R131). -/
def State.forceIncrement (s : State) : State := { s with id := true }

end Sys2Proof.Machine
end

