-- ==== Sys2Proof/Machine/AddressSet.lean ====
section
/-! DEFINITION. The address-set commands: SETDD, SETCG (40_address_set.md). -/

namespace Sys2Proof.Machine

/-- SETDD a: `AC <- NORM_DD(a)`, `MODE <- DDRAM` (R100). -/
def execSetdd (a : BitVec 7) (s : State) : Result :=
  .next ((s.point .ddram (normDd s.cfg.raw a)).drive .undriven)

/-- SETCG a: `AC <- zext_7(a)`, `MODE <- CGRAM` (R101). -/
def execSetcg (a : BitVec 6) (s : State) : Result :=
  .next ((s.point .cgram (zext7 a)).drive .undriven)

end Sys2Proof.Machine
end

