-- ==== Sys2Proof/Machine/Control.lean ====
section
/-! DEFINITION. The control-register commands DISPCTL, ENTRY (42_control_registers.md) and HOME, CLEAR, NOP, RSVD5
(43_home_clear_nop.md). -/

namespace Sys2Proof.Machine

/-- DISPCTL d,c,b: all three flags are loaded (R120). -/
def execDispctl (d c b : Bool) (s : State) : Result := .next ((s.setDisplay d c b).drive .undriven)

/-- ENTRY i,s: both flags are loaded (R121). -/
def execEntry (i sft : Bool) (s : State) : Result := .next ((s.setEntry i sft).drive .undriven)

/-- HOME: `AC <- 0`, `MODE <- DDRAM`, `SH <- 0` (R130). -/
def execHome (s : State) : Result := .next (((s.point .ddram 0).setSh 0).drive .undriven)

/-- CLEAR: every DDRAM byte `<- BLANK`, `AC <- 0`, `MODE <- DDRAM`, `ID <- 1`, in one atomic step (R131). -/
def execClear (s : State) : Result :=
  .next ((((s.fillDdram s.cfg.raw.blank).point .ddram 0).forceIncrement).drive .undriven)

/-- NOP: no state change (R132). -/
def execNop (s : State) : Result := .next (s.drive .undriven)

/-- RSVD5: no state change (R133). -/
def execRsvd5 (s : State) : Result := .next (s.drive .undriven)

end Sys2Proof.Machine
end

