-- ==== Sys2Proof/Machine/DataAccess.lean ====
section
/-! DEFINITION. The data write, the data read and the address read: WDATA, RDATA, RADDR (44_data_access.md). -/

namespace Sys2Proof.Machine

/-- The viewport shift of a data write: with `S = 1` in DDRAM mode `SH` moves by the `dir` that moves `AC`, never in
CGRAM mode (R141). -/
def State.shiftOnWrite (s : State) : State :=
  if s.s = true ∧ s.mode = .ddram then s.setSh (shmove s.sh s.entryDir) else s

/-- WDATA v: store at the counter's value before the step, advance, shift on write (R140). -/
def execWdata (v : BitVec 8) (s : State) : Result :=
  withOk (s.storeOperand v) fun stored =>
    withOk (stored.advance stored.entryDir) fun t =>
      .next (t.shiftOnWrite.drive .undriven)

/-- RDATA: the byte at the counter's value before the step, then advance; the viewport never moves (R143, R145). -/
def execRdata (s : State) : Result :=
  withOk s.operand fun v =>
    withOk (s.advance s.entryDir) fun t =>
      .next (t.drive (.dout v))

/-- RADDR: `dout <- {0, AC[6:0]}`, no state change (R144). -/
def execRaddr (s : State) : Result := .next (s.drive (.dout (addressByte s.ac)))

end Sys2Proof.Machine
end

