-- ==== Sys2Proof/Machine/Query.lean ====
section
/-! DEFINITION. The query port: QNPX, QNPY, QGEOM (45_geometry_query.md), QPIX, QUPD (46_pixel_output.md), and the answer
to a reserved `QSEL` (R82, R87). No query changes the engine's state. -/

namespace Sys2Proof.Machine

/-- QNPX: `qout <- NPX` (R155). -/
def execQnpx (s : State) : Result := .next (s.drive (.size s.cfg.raw.npx))

/-- QNPY: `qout <- NPY` (R156). -/
def execQnpy (s : State) : Result := .next (s.drive (.size s.cfg.raw.npy))

/-- QGEOM x,y: the address shown at a screen cell, or `OutOfRange` (R157, R158). -/
def execQgeom (x y : Nat) (s : State) : Result :=
  if s.cfg.raw.w ≤ x ∨ s.cfg.raw.h ≤ y then s.raise .outOfRange
  else .next (s.drive (.addr (cellAddr s.cfg.raw s.sh x y)))

/-- `GLYPH_BIT(code, ix, iy)`: codes 0x00..0x07 select a CGRAM slot, bit 4 the leftmost column; every other code asks the
glyph table (R167, R168). -/
def State.glyphBit (s : State) (code : Byte) (ix : Fin 5) (iy : Fin 8) : Bool :=
  if code ≤ 0x07#8 then (s.cgCell (glyphH * code.toNat + iy.val)).getLsbD (4 - ix.val)
  else Config.romPix s.cfg.raw.rom code ix iy

/-- `CURSOR_AT(a, iy, bp)`: the underline of the cursor cell, gated by the blink phase (R171, R172). -/
def State.cursorAt (s : State) (a : Addr) (iy : Fin 8) (bp : Bool) : Bool :=
  s.c && decide (s.mode = .ddram) && decide (a = s.ac) && decide (iy.val = 7) && (!s.b || bp)

/-- The in-glyph pixel (`ix`, `iy`) of the cell at screen column `cx`, row `cy`: display off, then glyph or cursor (R165,
R169). -/
def State.cellPixel (s : State) (cx cy : Nat) (ix : Fin 5) (iy : Fin 8) (bp : Bool) : Except Fault Pixel :=
  if s.d = false then .ok .off
  else
    let a := cellAddr s.cfg.raw s.sh cx cy
    match s.memRead .dd a with
    | .error f => .error f
    | .ok code => .ok (if s.glyphBit code ix iy || s.cursorAt a iy bp then .on else .off)

/-- The pixel at raster coordinate (`px`, `py`), the tests in the order of R170: raster bounds, gap, then the cell's own
pixel (R165, R166). -/
def State.pixelAt (s : State) (px py : Nat) (bp : Bool) : Except Fault Pixel :=
  let c := s.cfg.raw
  if c.npx ≤ px ∨ c.npy ≤ py then .ok .none
  else if h : px % c.pitchX < 5 ∧ py % c.pitchY < 8 then
    s.cellPixel (px / c.pitchX) (py / c.pitchY) ⟨px % c.pitchX, h.1⟩ ⟨py % c.pitchY, h.2⟩ bp
  else .ok .none

/-- QPIX px,py,bp: NONE, OFF or ON (R165). -/
def execQpix (px py : Nat) (bp : Bool) (s : State) : Result :=
  withOk (s.pixelAt px py bp) fun p => .next (s.drive (.pixel p))

/-- QUPD: no state change, no output (R175). -/
def execQupd (s : State) : Result := .next (s.drive .undriven)

/-- The answer to a query word that is no query: `qok = 0`, no state change (R82, R87; log 7). -/
def answerReserved (s : State) : Result := .next (s.drive .reserved)

end Sys2Proof.Machine
end

