-- ==== Sys2Proof/Machine/Shift.lean ====
section
/-! DEFINITION. The shift commands: CURL, CURR, DSPL, DSPR (41_shift.md). -/

namespace Sys2Proof.Machine

/-- The cursor shift: the counter moves one step in its bank; no memory, no viewport (R110, R111). -/
def cursorShift (dir : Dir) (s : State) : Result :=
  withOk (s.advance dir) fun t => .next (t.drive .undriven)

/-- The display shift: the viewport moves one step, whatever the counter (R112, R113). -/
def displayShift (dir : Dir) (s : State) : Result :=
  .next ((s.setSh (shmove s.sh dir)).drive .undriven)

/-- CURL: `AC <- ADV(AC, MODE, -1)` (R110). -/
def execCurl (s : State) : Result := cursorShift .dec s

/-- CURR: `AC <- ADV(AC, MODE, +1)` (R111). -/
def execCurr (s : State) : Result := cursorShift .inc s

/-- DSPL: `SH <- SHMOVE(SH, +1)` (R112). -/
def execDspl (s : State) : Result := displayShift .inc s

/-- DSPR: `SH <- SHMOVE(SH, -1)` (R113). -/
def execDspr (s : State) : Result := displayShift .dec s

end Sys2Proof.Machine
end

