-- ==== Sys2Proof/Machine/Dispatch.lean ====
section
/-! DEFINITION. One arm per instruction: a direct call of its meaning. -/

namespace Sys2Proof.Machine

def exec (i : Instr) (s : State) : Host.Outcome State Fault Refusal :=
  match i with
  | .setdd a => Sys2Proof.Machine.execSetdd a s
  | .setcg a => Sys2Proof.Machine.execSetcg a s
  | .rsvd5 => Sys2Proof.Machine.execRsvd5 s
  | .curl => Sys2Proof.Machine.execCurl s
  | .curr => Sys2Proof.Machine.execCurr s
  | .dspl => Sys2Proof.Machine.execDspl s
  | .dspr => Sys2Proof.Machine.execDspr s
  | .dispctl d c b => Sys2Proof.Machine.execDispctl d c b s
  | .entry m f => Sys2Proof.Machine.execEntry m f s
  | .home => Sys2Proof.Machine.execHome s
  | .clear => Sys2Proof.Machine.execClear s
  | .nop => Sys2Proof.Machine.execNop s
  | .raddr => Sys2Proof.Machine.execRaddr s
  | .wdata v => Sys2Proof.Machine.execWdata v s
  | .rdata => Sys2Proof.Machine.execRdata s
  | .qnpx => Sys2Proof.Machine.execQnpx s
  | .qnpy => Sys2Proof.Machine.execQnpy s
  | .qgeom x y => Sys2Proof.Machine.execQgeom x y s
  | .qpix px py bp => Sys2Proof.Machine.execQpix px py bp s
  | .qupd => Sys2Proof.Machine.execQupd s

end Sys2Proof.Machine
end

