-- ==== Sys2Proof/Machine/Step.lean ====
section
/-! DEFINITION. One step: the engine takes the oldest word the host has presented, decodes it and runs it (R2, R12, R23).
It has no program counter and fetches from no memory of its own. -/

namespace Sys2Proof.Machine

/-- Run one port word: the instruction it decodes to, or the answer to a reserved query (R87). -/
def runWord (w : PortWord) (s : State) : Host.Outcome State Fault Refusal :=
  match decode w with
  | .ok i => exec i s
  | .error _ => answerReserved s

/-- One step. With nothing presented there is no step to take (R203 (e), log 4). -/
def step (s : State) : Host.Outcome State Fault Refusal :=
  match s.inbox with
  | [] => .refused .noTransaction
  | w :: rest => runWord w (s.take rest)

/-- The state in which the host has presented the table word `w` as the next one (log 3, log 22). -/
def State.withFetchWord (s : State) (nbits w : Nat) : State :=
  { s with inbox := PortWord.ofTable nbits w :: s.inbox }

end Sys2Proof.Machine
end

