-- ==== Sys2Proof/Machine/Construct.lean ====
section
/-! DEFINITION. Construction, which is reset (70_reset_and_hazards.md R205). -/

namespace Sys2Proof.Machine

/-- `RESET(W, H, ROM)`: an engine in its reset state for a well-formed configuration, and for any other the condition
`InvalidDimensions` and no engine (R186, R205). -/
def create (raw : RawConfig) : Except Condition State :=
  if h : raw.wellFormed = true then .ok (State.init ⟨raw, h⟩) else .error .invalidDimensions

end Sys2Proof.Machine
end

