-- ==== Sys2Proof/Machine/Sequence.lean ====
section
/-! DEFINITION. Sequences: instructions one after the other, the pseudo-instructions and symbolic bytes of R90, R91 and
R142, and the spec's written form of an instruction. -/

namespace Sys2Proof.Machine

/-- The instructions one after the other, each complete before the next (R12, R69). -/
def execList : List Instr → State → Result
  | [], s => .next s
  | i :: rest, s =>
    match exec i s with
    | .next t => execList rest t
    | .fault f => .fault f
    | .refused r => .refused r

/-- WSTR: one WDATA a character code, in order, nothing else (R90, R142). -/
def wstr (text : List Byte) : List Instr := text.map .wdata

/-- A line of the spec's assembler (R90). -/
inductive AsmLine where
  | instr (i : Instr)
  /-- `WSTR "c1c2...cn"`. -/
  | wstr (text : List Byte)
  /-- `CMD b`: the command write of byte `b`, whatever it decodes to. -/
  | cmd (b : Byte)
deriving DecidableEq, Repr

/-- The words one line stands for (R90). -/
def lineWords : AsmLine → List PortWord
  | .instr i => [encode i]
  | .wstr text => (wstr text).map encode
  | .cmd b => [.command b]

/-- The words a program stands for: what the host presents, in order (R90). -/
def assemble (program : List AsmLine) : List PortWord := program.flatMap lineWords

/-- The engine with a program's words presented after those already waiting. -/
def State.present (s : State) (words : List PortWord) : State := { s with inbox := s.inbox ++ words }

/-- `CLEAR` of R91. -/
def symClear : Byte := 0x01#8
/-- `DISPLAY_ON` of R91. -/
def symDisplayOn : Byte := 0x0C#8
/-- `CURSOR` of R91. -/
def symCursor : Byte := 0x02#8
/-- `SHIFT_CURSOR` of R91, to the left. -/
def symShiftCursor : Byte := 0x10#8
/-- `SHIFT_DISPLAY` of R91, to the left. -/
def symShiftDisplay : Byte := 0x18#8
/-- Or'ed into a shift byte: to the right (R91). -/
def symRight : Byte := 0x04#8

/-- The operands as R90 writes them, in order; bits as 0 or 1. -/
def asmOperands : Instr → List Nat
  | .setdd a => [a.toNat]
  | .setcg a => [a.toNat]
  | .dispctl d c b => [d.toNat, c.toNat, b.toNat]
  | .entry i s => [i.toNat, s.toNat]
  | .wdata v => [v.toNat]
  | .qgeom x y => [x, y]
  | .qpix px py bp => [px, py, bp.toNat]
  | .rsvd5 | .curl | .curr | .dspl | .dspr | .home | .clear | .nop | .raddr | .rdata
  | .qnpx | .qnpy | .qupd => []

/-- An instruction as a line of text: the mnemonic, then its operands separated by commas, in decimal (R90; log 30). -/
def asmText (i : Instr) : String :=
  match asmOperands i with
  | [] => i.mnemonic
  | ops => i.mnemonic ++ " " ++ ",".intercalate (ops.map toString)

end Sys2Proof.Machine
end

