-- ==== Sys2Proof/Safety.lean ====
section
/-! DEFINITION. What the statements speak of: the invariant of R36 with the canonical form of memory, a safe step, and
the parts of the state a frame leaves alone. -/

namespace Sys2Proof.Machine

/-- `INV` of R36. -/
abbrev State.Valid (s : State) : Prop :=
  (s.mode = .ddram → validDd s.cfg.raw s.ac = true) ∧ (s.mode = .cgram → s.ac.toNat ≤ 63) ∧ s.sh.toNat ≤ 39

/-- Both banks are in canonical form: no cell outside the bank, none listed that reads as if unlisted. -/
abbrev State.MemoryOk (s : State) : Prop :=
  Memory.wf (resetByte s.cfg.raw .dd) ddramSize s.ddram = true ∧
  Memory.wf (resetByte s.cfg.raw .cg) cgramSize s.cgram = true

/-- The invariant of the model: `INV` of R36 and canonical memory. -/
abbrev State.Inv (s : State) : Prop := s.Valid ∧ s.MemoryOk

/-- The step runs: it answers a next state, not a fault and not a refusal. -/
abbrev Completes (r : Result) : Prop := ∃ t, r = .next t

/-- Every byte of both banks reads in `t` as in `s` (R34, R35). -/
abbrev SameBytes (s t : State) : Prop :=
  (∀ i, i < ddramSize → t.ddCell i = s.ddCell i) ∧ (∀ i, i < cgramSize → t.cgCell i = s.cgCell i)

/-- The counter and its mode tag are the same. -/
abbrev SamePointer (s t : State) : Prop := t.ac = s.ac ∧ t.mode = s.mode

/-- The five control fields are the same. -/
abbrev SameFlags (s t : State) : Prop := t.id = s.id ∧ t.s = s.s ∧ t.d = s.d ∧ t.c = s.c ∧ t.b = s.b

/-- What no instruction changes: the configuration and the words still to come. -/
abbrev SameHost (s t : State) : Prop := t.cfg = s.cfg ∧ t.inbox = s.inbox

/-- The ten items of R20 are the same; memory is compared byte by byte. -/
abbrev SameEngine (s t : State) : Prop := SameBytes s t ∧ SamePointer s t ∧ SameFlags s t ∧ t.sh = s.sh

/-- Column `col` of line `l` as an address, for statements that speak of lines and columns instead of `LINE_OF` and
`COL_OF` (R53). -/
abbrev lineAddr (c : RawConfig) (l : Line) (col : Nat) : Addr := BitVec.ofNat 7 (c.lineBase l + col)

/-- The neighbour of `x` below `n`: the next one up or down, wrapping; `ADV` and `SHMOVE` written out for statements
(R59, R61). -/
abbrev neighbour (up : Bool) (n x : Nat) : Nat := if up then (x + 1) % n else (x + (n - 1)) % n

end Sys2Proof.Machine
end

