-- ==== Sys2Proof/Certificates/Slice0/Obligations.lean ====
section
/-! DEFINITION. The statements for the provers, from the numbered rules of the spec, file by file. -/

open Sys2Proof Sys2Proof.Machine

/-! ### Construction, reset, the invariant, the step -/

/-- R205: construction with a well-formed configuration gives an engine with every item at its reset value. The values of
`B` and `SH` are the spec's decision D14 (log 19), `DDRAM_RESET_BYTE` is the parameter of D2 (log 13). -/
def Obligations.ConstructionGivesTheResetState : Prop :=
  ∀ raw : RawConfig, raw.wellFormed = true →
    ∃ s, create raw = .ok s ∧ s.cfg.raw = raw ∧
      (∀ i, i < 80 → s.ddCell i = raw.ddramResetByte) ∧ (∀ i, i < 64 → s.cgCell i = 0x00#8) ∧
      s.ac = 0 ∧ s.mode = .ddram ∧ s.id = true ∧ s.s = false ∧
      s.d = false ∧ s.c = false ∧ s.b = false ∧ s.sh = 0

/-- R186: outside the supported bounds, and for any configuration that fails the check, construction gives the condition
and no engine; every engine has a configuration that meets it. The check is R21's with the model's own additions: the
tables of R51 fail it too (log 27), the query ports must reach the raster (log 10), `MAX_ROWS` is 2 or 4 and the row
table has exactly `H` entries (log 31). -/
def Obligations.IllFormedConfigurationGivesNoEngine : Prop :=
  (∀ raw : RawConfig, raw.wellFormed = false → create raw = .error .invalidDimensions) ∧
  (∀ raw : RawConfig, raw.w = 0 ∨ 40 < raw.w ∨ raw.h = 0 ∨ raw.maxRows < raw.h →
    create raw = .error .invalidDimensions) ∧
  (∀ s : State, s.cfg.raw.wellFormed = true)

/-- R21 with the default tables of R5 and D24 (log 14): exactly the geometries the spec names can be built. -/
def Obligations.SupportedGeometriesAreExactlyThese : Prop :=
  (∀ w h rom, (∃ s, create (RawConfig.standard w h rom) = .ok s) ↔ 1 ≤ w ∧ w ≤ 40 ∧ 1 ≤ h ∧ h ≤ 2) ∧
  (∀ w h rom, (∃ s, create (RawConfig.fourRow w h rom) = .ok s) ↔
    1 ≤ w ∧ w ≤ 40 ∧ 1 ≤ h ∧ h ≤ 4 ∧ (h ≤ 2 ∨ 2 * w ≤ 40))

/-- R36 at reset, with the canonical form of memory (log 25). -/
def Obligations.ResetMeetsTheInvariant : Prop :=
  (∀ k : Config, (State.init k).Inv) ∧ State.reset.Inv

/-- R36: after reset and after every transaction the invariant holds. The canonical form of memory that is kept with it is
the model's choice (log 25). -/
def Obligations.EveryStepKeepsTheInvariant : Prop :=
  (∀ raw s, create raw = .ok s → s.Inv) ∧ (∀ s t : State, s.Inv → step s = .next t → t.Inv)

/-- R203 (a), R88, and for the query port R82, R87 (reserved selects answer as in log 7): whatever word the host presents, a
state that meets the invariant (canonical memory is log 25) has a next state: no fault, no refusal. The queue of words is
the model's choice (log 3). -/
def Obligations.PresentedWordsAlwaysComplete : Prop :=
  ∀ (s : State) (w : PortWord) (rest : List PortWord), s.Inv → s.inbox = w :: rest →
    ∃ t, step s = .next t ∧ t.inbox = rest ∧ t.cfg = s.cfg

/-- R12, R23: a step takes the oldest presented word and runs the instruction it decodes to (log 3). The same for a word
numbered as the opcode table numbers it (log 22). With nothing presented there is no step (R203 (e), the model's choice
of log 4). -/
def Obligations.StepRunsTheDecodedInstruction : Prop :=
  (∀ (s : State) (w : PortWord) (rest : List PortWord) (i : Instr),
    s.inbox = w :: rest → decode w = .ok i → step s = exec i { s with inbox := rest }) ∧
  (∀ (s : State) (nbits w : Nat) (i : Instr),
    decodeTableWord nbits w = some i → step (s.withFetchWord nbits w) = exec i s) ∧
  (∀ s : State, s.inbox = [] → step s = .refused .noTransaction)

/-- R82, R87 (the spec's decision D1, log 7): a reserved `QSEL` answers `qok = 0` and changes no state. -/
def Obligations.ReservedQueryAnswersNotOk : Prop :=
  ∀ (s : State) (rest : List PortWord) (q : BitVec 3) (qx qy : BitVec 16) (bp : Bool),
    5 ≤ q.toNat → s.inbox = .query q qx qy bp :: rest →
      step s = .next { s with inbox := rest, out := .reserved } ∧
      qokOf .reserved = some false ∧ qoutOf .reserved = none

/-- R12, R69: presenting the words of a list of instructions and stepping once a word is running the instructions one
after the other; what is presented after them waits. The queue of words is the model's choice (log 3). -/
def Obligations.RunIsTheInstructionsInOrder : Prop :=
  ∀ (program : List Instr) (s : State) (rest : List PortWord),
    (∀ i ∈ program, i.wellFormed = true) →
      Host.Core.run core program.length { s with inbox := program.map encode ++ rest } =
        execList program { s with inbox := rest }

/-! ### Encoding -/

/-- R84, R85: the decoder reads back every instruction the ports can carry, with every operand. -/
def Obligations.DecodeReadsBackEveryEncoding : Prop :=
  ∀ i : Instr, i.wellFormed = true → decode (encode i) = .ok i

/-- R83 (bit 5 by the spec's decision D7, the fields by D8, D10, D11; log 17): the ranges of the command byte and the
instruction of each, fields by position. -/
def Obligations.CommandByteDecodesByHighestSetBit : Prop :=
  ∀ b : Byte,
    (0x80 ≤ b.toNat → decode (.command b) = .ok (.setdd (BitVec.ofNat 7 (b.toNat - 0x80)))) ∧
    (0x40 ≤ b.toNat → b.toNat < 0x80 → decode (.command b) = .ok (.setcg (BitVec.ofNat 6 (b.toNat - 0x40)))) ∧
    (0x20 ≤ b.toNat → b.toNat < 0x40 → decode (.command b) = .ok .rsvd5) ∧
    (0x1C ≤ b.toNat → b.toNat < 0x20 → decode (.command b) = .ok .dspr) ∧
    (0x18 ≤ b.toNat → b.toNat < 0x1C → decode (.command b) = .ok .dspl) ∧
    (0x14 ≤ b.toNat → b.toNat < 0x18 → decode (.command b) = .ok .curr) ∧
    (0x10 ≤ b.toNat → b.toNat < 0x14 → decode (.command b) = .ok .curl) ∧
    (0x08 ≤ b.toNat → b.toNat < 0x10 →
      decode (.command b) = .ok (.dispctl (b.getLsbD 2) (b.getLsbD 1) (b.getLsbD 0))) ∧
    (0x04 ≤ b.toNat → b.toNat < 0x08 → decode (.command b) = .ok (.entry (b.getLsbD 1) (b.getLsbD 0))) ∧
    (0x02 ≤ b.toNat → b.toNat < 0x04 → decode (.command b) = .ok .home) ∧
    (b.toNat = 0x01 → decode (.command b) = .ok .clear) ∧
    (b.toNat = 0x00 → decode (.command b) = .ok .nop)

/-- R88: every transaction word lies in exactly one row of the opcode table, the row of the instruction it decodes to. -/
def Obligations.EveryBusWordLiesInExactlyOneRow : Prop :=
  ∀ w : BitVec 10, ∃ i, decode (.bus w) = .ok i ∧
    (busRows.filter fun r => rowMatches r w).map OpcodeRow.mnemonic = [i.mnemonic]

/-- R81 and the select codes of R82 (the spec's decision D1): the transaction class by `RS RW`, the query by `QSEL`,
operands taken whole; the reserved selects are rejected by name. -/
def Obligations.ClassesAndQueriesDecodeBySelect : Prop :=
  ∀ (db : Byte) (qx qy : BitVec 16) (bp : Bool),
    decode (.bus (0b00#2 ++ db)) = decode (.command db) ∧
    decode (.bus (0b01#2 ++ db)) = .ok .raddr ∧
    decode (.bus (0b10#2 ++ db)) = .ok (.wdata db) ∧
    decode (.bus (0b11#2 ++ db)) = .ok .rdata ∧
    decode (.query 0b000#3 qx qy bp) = .ok .qnpx ∧
    decode (.query 0b001#3 qx qy bp) = .ok .qnpy ∧
    decode (.query 0b010#3 qx qy bp) = .ok (.qgeom qx.toNat qy.toNat) ∧
    decode (.query 0b011#3 qx qy bp) = .ok (.qpix qx.toNat qy.toNat bp) ∧
    decode (.query 0b100#3 qx qy bp) = .ok .qupd ∧
    (∀ q : BitVec 3, 5 ≤ q.toNat → decode (.query q qx qy bp) = .error (.reservedQuery q))

/-- Words written out bit by bit from the encodings of R84 decode to the instructions they stand for. -/
def Obligations.WrittenOutWordsDecode : Prop :=
  decode (.bus 0b0011000101#10) = .ok (.setdd 0x45) ∧
  decode (.bus 0b0001011010#10) = .ok (.setcg 0x1A) ∧
  decode (.bus 0b0000111000#10) = .ok .rsvd5 ∧
  decode (.bus 0b0000010110#10) = .ok .curr ∧
  decode (.bus 0b0000011001#10) = .ok .dspl ∧
  decode (.bus 0b0000001110#10) = .ok (.dispctl true true false) ∧
  decode (.bus 0b0000000101#10) = .ok (.entry false true) ∧
  decode (.bus 0b0000000011#10) = .ok .home ∧
  decode (.bus 0b0000000001#10) = .ok .clear ∧
  decode (.bus 0b0110101011#10) = .ok .raddr ∧
  decode (.bus 0b1001001000#10) = .ok (.wdata 0x48) ∧
  decode (.bus 0b1111111111#10) = .ok .rdata ∧
  decode (.query 0b010#3 15 1 false) = .ok (.qgeom 15 1)

/-! ### Addresses -/

/-- R58 (wrap, the spec's decision D5): the value `NORM_DD` gives, that it is always valid, and that valid addresses stay
as they are; with line 1 at 0x40, the table of the rule. -/
def Obligations.NormalisationWrapsIntoItsLine : Prop :=
  ∀ (k : Config) (a : BitVec 7),
    validDd k.raw (normDd k.raw a) = true ∧
    (validDd k.raw a = true → normDd k.raw a = a) ∧
    (k.raw.lineBase1 ≤ a.toNat →
      (normDd k.raw a).toNat = k.raw.lineBase1 + (a.toNat - k.raw.lineBase1) % 40) ∧
    (a.toNat < k.raw.lineBase1 → (normDd k.raw a).toNat = a.toNat % 40) ∧
    (k.raw.lineBase1 = 0x40 →
      (0x28 ≤ a.toNat ∧ a.toNat < 0x40 ∨ 0x68 ≤ a.toNat → (normDd k.raw a).toNat = a.toNat - 0x28) ∧
      (a.toNat < 0x28 ∨ 0x40 ≤ a.toNat ∧ a.toNat < 0x68 → normDd k.raw a = a))

/-- R53: `IDX` is a bijection from the valid addresses onto 0..79, line after line. -/
def Obligations.StorageIndexIsABijection : Prop :=
  ∀ k : Config,
    (∀ (l : Line) (col : Nat), col < 40 → idx k.raw (lineAddr k.raw l col) = some (40 * l.val + col)) ∧
    (∀ a, validDd k.raw a = true → ∃ i, i < 80 ∧ idx k.raw a = some i) ∧
    (∀ i, i < 80 → ∃ a, validDd k.raw a = true ∧ idx k.raw a = some i ∧
      ∀ a', idx k.raw a' = some i → a' = a)

/-- R60: one step of `ADV` stays valid in its mode and, in DDRAM mode, in its line; a step the other way undoes it. -/
def Obligations.AdvanceStaysInItsLineAndIsUndone : Prop :=
  (∀ (k : Config) (a : Addr) (l : Line) (dir back : Dir), dir ≠ back → lineOf k.raw a = some l →
    ∃ a', adv k.raw a .ddram dir = .ok a' ∧ lineOf k.raw a' = some l ∧ adv k.raw a' .ddram back = .ok a) ∧
  (∀ (k : Config) (a : Addr) (dir back : Dir), dir ≠ back → a.toNat ≤ 63 →
    ∃ a', adv k.raw a .cgram dir = .ok a' ∧ a'.toNat ≤ 63 ∧ adv k.raw a' .cgram back = .ok a)

/-- R60: N cursor shifts to the right move the counter N columns around its line, N addresses around CGRAM, and come back
exactly after a multiple of 40, of 64. -/
def Obligations.ManyCursorShiftsGoRoundTheLine : Prop :=
  ∀ (s : State) (n : Nat),
    (∀ (l : Line) (col : Nat), s.mode = .ddram → col < 40 → s.ac = lineAddr s.cfg.raw l col →
      ∃ t, execList (List.replicate n .curr) s = .next t ∧
        t.ac = lineAddr s.cfg.raw l ((col + n) % 40) ∧ (t.ac = s.ac ↔ n % 40 = 0)) ∧
    (s.mode = .cgram → s.ac.toNat ≤ 63 →
      ∃ t, execList (List.replicate n .curr) s = .next t ∧
        t.ac.toNat = (s.ac.toNat + n) % 64 ∧ (t.ac = s.ac ↔ n % 64 = 0))

/-- R63, R51: the address shown at a screen cell is valid and lies in the row's line, and no two cells of the screen show
the same address, whatever the shift. -/
def Obligations.ScreenCellsShowDistinctValidAddresses : Prop :=
  ∀ (k : Config) (sh : BitVec 6) (x y : Nat), x < k.raw.w → y < k.raw.h →
    (cellAddr k.raw sh x y).toNat =
      k.raw.lineBase (k.raw.row y).line + ((k.raw.row y).col0 + x + sh.toNat) % 40 ∧
    validDd k.raw (cellAddr k.raw sh x y) = true ∧
    lineOf k.raw (cellAddr k.raw sh x y) = some (k.raw.row y).line ∧
    (∀ x' y', x' < k.raw.w → y' < k.raw.h → cellAddr k.raw sh x' y' = cellAddr k.raw sh x y → x' = x ∧ y' = y)

/-! ### The command writes -/

/-- R100 (wrap, D5): SETDD in every state. -/
def Obligations.SetddLoadsTheNormalisedAddress : Prop :=
  ∀ (s : State) (a : BitVec 7), ∃ t,
    exec (.setdd a) s = .next t ∧
    t = { s with ac := t.ac, mode := .ddram, out := .undriven } ∧
    (s.cfg.raw.lineBase1 ≤ a.toNat →
      t.ac.toNat = s.cfg.raw.lineBase1 + (a.toNat - s.cfg.raw.lineBase1) % 40) ∧
    (a.toNat < s.cfg.raw.lineBase1 → t.ac.toNat = a.toNat % 40)

/-- R101: SETCG in every state, from each of its bytes (those with bit 7 set are SETDD). The address read then returns the
field, bit 6 clear, and bit 7 is 0 by the spec's decision D23 (R144, log 24); no cell is the cursor cell by its decision
D20 (R171, log 24). -/
def Obligations.SetcgLoadsTheField : Prop :=
  (∀ (s : State) (a : BitVec 6), ∃ t,
    exec (.setcg a) s = .next t ∧ runWord (.command (0b01#2 ++ a)) s = .next t ∧
    t = { s with ac := t.ac, mode := .cgram, out := .undriven } ∧
    t.ac.toNat = a.toNat ∧ t.ac.getLsbD 6 = false ∧
    (∃ b : Byte, exec .raddr t = .next { t with out := .dout b } ∧ b.toNat = a.toNat) ∧
    ∀ x iy bp, t.cursorAt x iy bp = false) ∧
  (∀ b : Byte, 0xC0 ≤ b.toNat → ∃ a, decode (.command b) = .ok (.setdd a))

/-- R110, R111 (D6): the cursor shifts, in both modes; nothing but `AC` changes. -/
def Obligations.CursorShiftMovesTheCounterOneColumn : Prop :=
  ∀ s : State,
    (∀ (l : Line) (col : Nat), s.mode = .ddram → col < 40 → s.ac = lineAddr s.cfg.raw l col →
      exec .curl s = .next { s with ac := lineAddr s.cfg.raw l (neighbour false 40 col), out := .undriven } ∧
      exec .curr s = .next { s with ac := lineAddr s.cfg.raw l (neighbour true 40 col), out := .undriven }) ∧
    (s.mode = .cgram → s.ac.toNat ≤ 63 →
      exec .curl s = .next { s with ac := BitVec.ofNat 7 (neighbour false 64 s.ac.toNat), out := .undriven } ∧
      exec .curr s = .next { s with ac := BitVec.ofNat 7 (neighbour true 64 s.ac.toNat), out := .undriven })

/-- R112, R113 (D9): the display shifts, whatever the mode; nothing but `SH` changes. -/
def Obligations.DisplayShiftMovesTheWindowOneColumn : Prop :=
  ∀ s : State, s.sh.toNat ≤ 39 →
    exec .dspl s = .next { s with sh := BitVec.ofNat 6 (neighbour true 40 s.sh.toNat), out := .undriven } ∧
    exec .dspr s = .next { s with sh := BitVec.ofNat 6 (neighbour false 40 s.sh.toNat), out := .undriven }

/-- R61, R112, R113: N shifts one way move the window N columns modulo 40, forty bring it back, and a shift each way
restores it; the counter, the memories and the flags stay. -/
def Obligations.FortyDisplayShiftsRestoreTheWindow : Prop :=
  ∀ s : State, s.sh.toNat ≤ 39 →
    (∀ n, 0 < n → execList (List.replicate n .dspl) s =
      .next { s with sh := BitVec.ofNat 6 ((s.sh.toNat + n) % 40), out := .undriven }) ∧
    execList (List.replicate 40 .dspr) s = .next { s with out := .undriven } ∧
    execList [.dspl, .dspr] s = .next { s with out := .undriven } ∧
    execList [.dspr, .dspl] s = .next { s with out := .undriven }

/-- R120 (bit positions D10): DISPCTL loads all three flags from bits 2, 1, 0 and changes nothing else. -/
def Obligations.DispctlLoadsThreeFlags : Prop :=
  (∀ (s : State) (d c b : Bool),
    exec (.dispctl d c b) s = .next { s with d := d, c := c, b := b, out := .undriven }) ∧
  (∀ (s : State) (x : Byte), 0x08 ≤ x.toNat → x.toNat < 0x10 →
    runWord (.command x) s =
      .next { s with d := x.getLsbD 2, c := x.getLsbD 1, b := x.getLsbD 0, out := .undriven })

/-- R121 (bit positions D11): ENTRY loads both flags from bits 1, 0 and changes nothing else. -/
def Obligations.EntryLoadsTwoFlags : Prop :=
  (∀ (s : State) (i sft : Bool), exec (.entry i sft) s = .next { s with id := i, s := sft, out := .undriven }) ∧
  (∀ (s : State) (x : Byte), 0x04 ≤ x.toNat → x.toNat < 0x08 →
    runWord (.command x) s = .next { s with id := x.getLsbD 1, s := x.getLsbD 0, out := .undriven })

/-- R130 (what HOME leaves alone is D26): counter, mode and viewport, by either byte, and nothing else. -/
def Obligations.HomeResetsPointerAndViewport : Prop :=
  ∀ s : State,
    exec .home s = .next { s with ac := 0, mode := .ddram, sh := 0, out := .undriven } ∧
    runWord (.command 0x02#8) s = exec .home s ∧ runWord (.command 0x03#8) s = exec .home s

/-- R131 (what CLEAR leaves alone is D26, log 29; `BLANK` is the parameter of D3, log 16): all 80 bytes, counter, mode and
direction, in one step, and nothing else. The last clause, that the memory left is in canonical form, is the model's
choice (log 25) and no part of the rule. -/
def Obligations.ClearFillsDisplayMemory : Prop :=
  ∀ s : State, ∃ t, exec .clear s = .next t ∧
    (∀ i, i < 80 → t.ddCell i = s.cfg.raw.blank) ∧
    t = { s with ddram := t.ddram, ac := 0, mode := .ddram, id := true, out := .undriven } ∧
    Memory.wf t.cfg.raw.ddramResetByte 80 t.ddram = true

/-- R132: the all-zero command byte. -/
def Obligations.NopChangesNothing : Prop :=
  ∀ s : State, exec .nop s = .next { s with out := .undriven } ∧
    runWord (.command 0x00#8) s = .next { s with out := .undriven }

/-- R133 (D7): the reserved command bytes 0x20..0x3F. -/
def Obligations.ReservedCommandBytesChangeNothing : Prop :=
  (∀ s : State, exec .rsvd5 s = .next { s with out := .undriven }) ∧
  (∀ (s : State) (x : Byte), 0x20 ≤ x.toNat → x.toNat < 0x40 →
    runWord (.command x) s = .next { s with out := .undriven })

/-- R66: six commands may be repeated: twice in a row leaves the state of once. -/
def Obligations.LoadCommandsAreIdempotent : Prop :=
  ∀ (i : Instr) (s t : State),
    (∃ a, i = .setdd a) ∨ (∃ a, i = .setcg a) ∨ (∃ d c b, i = .dispctl d c b) ∨ (∃ m f, i = .entry m f) ∨
      i = .home ∨ i = .clear →
    exec i s = .next t → exec i t = .next t

/-! ### Data access -/

/-- R56: the memory primitives: what a read returns, what a write stores (all 8 bits) and what it leaves. -/
def Obligations.MemoryPrimitivesReadBackWhatTheyWrite : Prop :=
  ∀ (s : State) (a : Addr) (v : Byte), s.MemoryOk →
    (∀ i, idx s.cfg.raw a = some i →
      s.memRead .dd a = .ok (s.ddCell i) ∧
      ∃ t, s.memWrite .dd a v = .ok t ∧ t = { s with ddram := t.ddram } ∧ t.MemoryOk ∧
        t.memRead .dd a = .ok v ∧ (∀ j, j ≠ i → t.ddCell j = s.ddCell j)) ∧
    (a.toNat ≤ 63 →
      s.memRead .cg a = .ok (s.cgCell a.toNat) ∧
      ∃ t, s.memWrite .cg a v = .ok t ∧ t = { s with cgram := t.cgram } ∧ t.MemoryOk ∧
        t.memRead .cg a = .ok v ∧ (∀ j, j ≠ a.toNat → t.cgCell j = s.cgCell j))

/-- R140, R141 (one offset, D12): WDATA in DDRAM mode. -/
def Obligations.WdataWritesDisplayMemory : Prop :=
  ∀ (s : State) (v : Byte) (l : Line) (col : Nat), s.Inv → s.mode = .ddram → col < 40 →
    s.ac = lineAddr s.cfg.raw l col →
    ∃ t, exec (.wdata v) s = .next t ∧
      t.ddCell (40 * l.val + col) = v ∧
      (∀ j, j ≠ 40 * l.val + col → t.ddCell j = s.ddCell j) ∧
      t.ac = lineAddr s.cfg.raw l (neighbour s.id 40 col) ∧
      t.sh = (if s.s then BitVec.ofNat 6 (neighbour s.id 40 s.sh.toNat) else s.sh) ∧
      t = { s with ddram := t.ddram, ac := t.ac, sh := t.sh, out := .undriven }

/-- R140 (no shift in CGRAM mode, D13): WDATA in CGRAM mode. -/
def Obligations.WdataWritesGlyphMemory : Prop :=
  ∀ (s : State) (v : Byte), s.Inv → s.mode = .cgram →
    ∃ t, exec (.wdata v) s = .next t ∧
      t.cgCell s.ac.toNat = v ∧
      (∀ j, j ≠ s.ac.toNat → t.cgCell j = s.cgCell j) ∧
      t.ac = BitVec.ofNat 7 (neighbour s.id 64 s.ac.toNat) ∧
      t = { s with cgram := t.cgram, ac := t.ac, out := .undriven }

/-- R143: RDATA, whatever `DB` carries, returns the byte at the counter's value before the step, advances as WDATA does,
and changes nothing else. -/
def Obligations.RdataReadsThenAdvances : Prop :=
  ∀ s : State,
    (∀ (l : Line) (col : Nat), s.mode = .ddram → col < 40 → s.ac = lineAddr s.cfg.raw l col →
      exec .rdata s = .next { s with
        ac := lineAddr s.cfg.raw l (neighbour s.id 40 col), out := .dout (s.ddCell (40 * l.val + col)) }) ∧
    (s.mode = .cgram → s.ac.toNat ≤ 63 →
      exec .rdata s = .next { s with
        ac := BitVec.ofNat 7 (neighbour s.id 64 s.ac.toNat), out := .dout (s.cgCell s.ac.toNat) }) ∧
    (∀ db : Byte, runWord (.bus (0b11#2 ++ db)) s = exec .rdata s)

/-- R144 (bit 7 is 0, D23): RADDR in every state. -/
def Obligations.RaddrReturnsTheCounter : Prop :=
  ∀ s : State, ∃ b : Byte, exec .raddr s = .next { s with out := .dout b } ∧
    b.toNat = s.ac.toNat ∧ b.getLsbD 7 = false

/-- R145: a read and a write move the counter alike; with `S` set in DDRAM mode the write moves the viewport, and a read
never does. -/
def Obligations.WritesShiftTheViewportReadsNever : Prop :=
  ∀ (s t u : State) (v : Byte), exec .rdata s = .next t → exec (.wdata v) s = .next u →
    t.ac = u.ac ∧ t.sh = s.sh ∧ (s.s = true → s.mode = .ddram → s.sh.toNat ≤ 39 → u.sh ≠ s.sh) ∧
    (s.s = false → u.sh = s.sh)

/-- R141 (one offset, D12): a shifting write keeps the screen column of the cursor cell, on every screen row. -/
def Obligations.AutoScrollKeepsTheCursorColumn : Prop :=
  ∀ (s t : State) (v : Byte) (l : Line) (col col' : Nat) (y : Nat), s.Inv → s.mode = .ddram → s.s = true →
    col < 40 → col' < 40 → s.ac = lineAddr s.cfg.raw l col → exec (.wdata v) s = .next t →
    t.ac = lineAddr s.cfg.raw l col' →
    ((col' : Int) - (s.cfg.raw.row y).col0 - t.sh.toNat) % 40 =
      ((col : Int) - (s.cfg.raw.row y).col0 - s.sh.toNat) % 40

/-- R102: a byte written at an address is read back after the counter is set to that address again, in both banks. The
premise that memory is canonical is the model's (log 25). -/
def Obligations.DataRoundTripInBothBanks : Prop :=
  ∀ (s : State) (v : Byte), s.MemoryOk →
    (∀ a : BitVec 7, validDd s.cfg.raw a = true →
      ∃ t, execList [.setdd a, .wdata v, .setdd a, .rdata] s = .next t ∧ t.out = .dout v) ∧
    (∀ a : BitVec 6,
      ∃ t, execList [.setcg a, .wdata v, .setcg a, .rdata] s = .next t ∧ t.out = .dout v)

/-- R142, R90: the words of WSTR, presented and stepped through, are one WDATA a code, in order; the empty text is nothing.
The queue of words is the model's choice (log 3). -/
def Obligations.WriteStringIsWritesInOrder : Prop :=
  ∀ (text : List Byte) (s : State) (rest : List PortWord),
    (assemble [.wstr text]).length = text.length ∧
    Host.Core.run core text.length { s with inbox := assemble [.wstr text] ++ rest } =
      execList (text.map fun c => .wdata c) { s with inbox := rest }

/-- R147 (a), (d): N writes with increment, from column `col` of a line, leave the counter N columns on in the same line
and, with `S` set, the viewport N columns on. -/
def Obligations.ManyWritesAdvanceInTheLine : Prop :=
  ∀ (text : List Byte) (s : State) (l : Line) (col : Nat), s.Inv → s.mode = .ddram → s.id = true → col < 40 →
    s.ac = lineAddr s.cfg.raw l col →
    ∃ t, execList (wstr text) s = .next t ∧
      t.ac = lineAddr s.cfg.raw l ((col + text.length) % 40) ∧
      t.sh.toNat = (if s.s then (s.sh.toNat + text.length) % 40 else s.sh.toNat)

/-- R147 (c), R143: N reads move the counter as N writes do, and leave the viewport and every byte of both memories. -/
def Obligations.ManyReadsMoveTheCounterAsWrites : Prop :=
  ∀ (text : List Byte) (s t : State), s.Inv → execList (wstr text) s = .next t →
    ∃ u, execList (List.replicate text.length .rdata) s = .next u ∧ u.ac = t.ac ∧ u.sh = s.sh ∧
      (∀ i, i < 80 → u.ddCell i = s.ddCell i) ∧ (∀ i, i < 64 → u.cgCell i = s.cgCell i)

/-- R142, R59: a text of at most 40 codes lies in the line it began in, code after code, wrapping at its end; every other
byte is as it was. -/
def Obligations.TextLiesInTheLineItBeganIn : Prop :=
  ∀ (text : List Byte) (s t : State) (l : Line) (col : Nat), s.Inv → s.mode = .ddram → s.id = true → col < 40 →
    s.ac = lineAddr s.cfg.raw l col → text.length ≤ 40 → execList (wstr text) s = .next t →
    (∀ n, n < text.length → t.ddCell (40 * l.val + (col + n) % 40) = text.getD n 0) ∧
    (∀ j, (∀ n, n < text.length → j ≠ 40 * l.val + (col + n) % 40) → t.ddCell j = s.ddCell j)

/-! ### Queries -/

/-- R155, R156 (gap, D18): the raster size is a constant of the configuration. -/
def Obligations.RasterSizeQueries : Prop :=
  ∀ s : State,
    exec .qnpx s = .next { s with out := .size (s.cfg.raw.w * (5 + s.cfg.raw.gapX) - s.cfg.raw.gapX) } ∧
    exec .qnpy s = .next { s with out := .size (s.cfg.raw.h * (8 + s.cfg.raw.gapY) - s.cfg.raw.gapY) } ∧
    (s.cfg.raw.gapX = 1 → s.cfg.raw.npx = 6 * s.cfg.raw.w - 1) ∧
    (s.cfg.raw.gapY = 1 → s.cfg.raw.npy = 9 * s.cfg.raw.h - 1)

/-- R157, R158 (D12, D22): inside the screen the address of the cell, outside it `OutOfRange` and no value; no state
changes. -/
def Obligations.GeometryQueryAnswersOrFails : Prop :=
  ∀ (s : State) (x y : Nat),
    (x < s.cfg.raw.w → y < s.cfg.raw.h →
      exec (.qgeom x y) s = .next { s with out := .addr (lineAddr s.cfg.raw (s.cfg.raw.row y).line
        (((s.cfg.raw.row y).col0 + x + s.sh.toNat) % 40)) }) ∧
    (s.cfg.raw.w ≤ x ∨ s.cfg.raw.h ≤ y →
      exec (.qgeom x y) s = .next { s with out := .failed .outOfRange }) ∧
    qokOf (.failed .outOfRange) = some false ∧ qoutOf (.failed .outOfRange) = none

/-- R187: `OutOfRange` is raised by QGEOM alone, changes no state, and what comes next behaves as if the failed query had
not been issued. -/
def Obligations.OnlyQgeomRaisesOutOfRange : Prop :=
  ∀ (i : Instr) (s t : State), exec i s = .next t →
    (t.out = .failed .outOfRange ↔ ∃ x y, i = .qgeom x y ∧ (s.cfg.raw.w ≤ x ∨ s.cfg.raw.h ≤ y)) ∧
    (t.out = .failed .outOfRange → t = { s with out := t.out } ∧ ∀ j, exec j t = exec j s)

/-- R159 (c), (d): which instructions leave every `CELL_ADDR`, and what the display shifts do to it on every screen row
at once. -/
def Obligations.OnlyShiftsMoveTheScreenWindow : Prop :=
  ∀ (i : Instr) (s t : State) (x y : Nat), exec i s = .next t →
    (i ≠ .dspl → i ≠ .dspr → i ≠ .home → (∀ v, i = .wdata v → s.s = false ∨ s.mode = .cgram) →
      cellAddr t.cfg.raw t.sh x y = cellAddr s.cfg.raw s.sh x y) ∧
    (i = .dspl → s.sh.toNat ≤ 39 →
      t.ac = s.ac ∧ cellAddr t.cfg.raw t.sh x y = cellAddr s.cfg.raw s.sh (x + 1) y) ∧
    (i = .dspr → s.sh.toNat ≤ 39 →
      t.ac = s.ac ∧ cellAddr t.cfg.raw t.sh (x + 1) y = cellAddr s.cfg.raw s.sh x y)

/-- R165 to R172 (pitch D18, codes and bit order D16, D17, outside the raster D19, cursor cell D20, blink D21): QPIX in
every state at every coordinate, in the order of its tests; no state changes. -/
def Obligations.PixelQueryFollowsItsTests : Prop :=
  ∀ (s : State) (bp : Bool),
    (∀ px py, s.cfg.raw.npx ≤ px ∨ s.cfg.raw.npy ≤ py →
      exec (.qpix px py bp) s = .next { s with out := .pixel .none }) ∧
    (∀ px py, 5 ≤ px % (5 + s.cfg.raw.gapX) ∨ 8 ≤ py % (8 + s.cfg.raw.gapY) →
      exec (.qpix px py bp) s = .next { s with out := .pixel .none }) ∧
    (∀ (cx cy : Nat) (ix : Fin 5) (iy : Fin 8), cx < s.cfg.raw.w → cy < s.cfg.raw.h →
      ∃ p, exec (.qpix ((5 + s.cfg.raw.gapX) * cx + ix.val) ((8 + s.cfg.raw.gapY) * cy + iy.val) bp) s =
          .next { s with out := .pixel p } ∧
        (s.d = false → p = .off) ∧
        (s.d = true →
          ∀ (l : Line) (col : Nat) (code : Byte), l = (s.cfg.raw.row cy).line →
            col = ((s.cfg.raw.row cy).col0 + cx + s.sh.toNat) % 40 → code = s.ddCell (40 * l.val + col) →
            (p = .on ↔
              (code.toNat ≤ 7 ∧ (s.cgCell (8 * code.toNat + iy.val)).getLsbD (4 - ix.val) = true) ∨
              (8 ≤ code.toNat ∧ Config.romPix s.cfg.raw.rom code ix iy = true) ∨
              (s.c = true ∧ s.mode = .ddram ∧ s.ac = lineAddr s.cfg.raw l col ∧ iy.val = 7 ∧
                (s.b = false ∨ bp = true))) ∧
            p ≠ .none))

/-- R172 (D21), R169 (D28), R171 (D20; all three log 24): the blink phase matters only with the display on, in DDRAM mode,
and with both the cursor and blink set. -/
def Obligations.BlinkPhaseMattersOnlyWhileBlinking : Prop :=
  ∀ (s : State) (px py : Nat) (bp bp' : Bool), s.c = false ∨ s.b = false ∨ s.d = false ∨ s.mode = .cgram →
    exec (.qpix px py bp) s = exec (.qpix px py bp') s

/-- R173: the pixel is a function of the ten items, the configuration and the operands; not of earlier outputs, of words
waiting, or of any query before it. -/
def Obligations.PixelQueryIsPure : Prop :=
  ∀ (s t : State) (px py : Nat) (bp : Bool), t.cfg = s.cfg → SameEngine s t →
    ∃ p, exec (.qpix px py bp) s = .next { s with out := .pixel p } ∧
      exec (.qpix px py bp) t = .next { t with out := .pixel p } ∧
      ∀ j, (j = .qnpx ∨ j = .qnpy ∨ j = .qupd ∨ (∃ x y, j = .qgeom x y) ∨ ∃ x y bp', j = .qpix x y bp') →
        execList [j, .qpix px py bp] t = .next { t with out := .pixel p }

/-- R175: the refresh hook: no state change, no output, and no later result differs for it. That not even `qok` is driven,
which R82 speaks of with every query, is the model's reading (log 6). -/
def Obligations.QupdChangesNothing : Prop :=
  ∀ s : State, exec .qupd s = .next { s with out := .undriven } ∧
    doutOf .undriven = none ∧ qoutOf .undriven = none ∧
    (∀ (n : Nat) (later : Instr), execList (List.replicate n .qupd ++ [later]) s = exec later s)

/-- R174 (b): a glyph written into slot `k` through CGRAM and selected by code `k` at a screen cell shows exactly its
pattern there (layout and bit order D16, D17). -/
def Obligations.CustomGlyphShowsItsPattern : Prop :=
  ∀ (s : State) (k cx cy : Nat) (rows : List Byte), s.Inv → s.d = true → s.c = false → s.id = true → s.s = false →
    k < 8 → rows.length = 8 → cx < s.cfg.raw.w → cy < s.cfg.raw.h →
    ∃ t, execList (.setcg (BitVec.ofNat 6 (8 * k)) :: (wstr rows ++
        [.setdd (cellAddr s.cfg.raw s.sh cx cy), .wdata (BitVec.ofNat 8 k)])) s = .next t ∧
      ∀ (ix : Fin 5) (iy : Fin 8) (bp : Bool),
        exec (.qpix ((5 + s.cfg.raw.gapX) * cx + ix.val) ((8 + s.cfg.raw.gapY) * cy + iy.val) bp) t =
          .next { t with out := .pixel (if (rows.getD iy.val 0).getLsbD (4 - ix.val) then .on else .off) }

/-- R206 (`DDRAM_RESET_BYTE` is the parameter of D2): what can be seen right after reset. -/
def Obligations.WhatCanBeSeenAfterReset : Prop :=
  ∀ k : Config,
    exec .raddr (State.init k) = .next { State.init k with out := .dout 0x00#8 } ∧
    exec .rdata (State.init k) = .next { State.init k with ac := 0x01#7, out := .dout k.raw.ddramResetByte } ∧
    exec (.qgeom 0 0) (State.init k) = .next { State.init k with
      out := .addr (lineAddr k.raw (k.raw.row 0).line (k.raw.row 0).col0) } ∧
    (∀ px py bp, px < k.raw.npx → py < k.raw.npy →
      exec (.qpix px py bp) (State.init k) = .next { State.init k with
        out := .pixel (if px % (5 + k.raw.gapX) < 5 ∧ py % (8 + k.raw.gapY) < 8 then .off else .none) })

/-! ### The whole machine -/

/-- R62: the mode tag and the counter are loaded together by four commands, each with a value of the new mode, and no
other instruction changes the mode; the four remember nothing of the position they replace. -/
def Obligations.ModeChangesOnlyByFourCommands : Prop :=
  ∀ (i : Instr) (s t : State), exec i s = .next t →
    (∀ a, i = .setdd a → t.ac = normDd s.cfg.raw a ∧ t.mode = .ddram ∧ validDd s.cfg.raw t.ac = true) ∧
    (∀ a, i = .setcg a → t.ac.toNat = a.toNat ∧ t.mode = .cgram) ∧
    (i = .home ∨ i = .clear → t.ac = 0 ∧ t.mode = .ddram) ∧
    ((∀ a, i ≠ .setdd a) → (∀ a, i ≠ .setcg a) → i ≠ .home → i ≠ .clear → t.mode = s.mode) ∧
    ((∃ a, i = .setdd a) ∨ (∃ a, i = .setcg a) ∨ i = .home ∨ i = .clear →
      ∀ (a : Addr) (m : Mode), exec i { s with ac := a, mode := m } = .next t)

/-- R20, the column "written by": each item of the state is changed only by the instructions listed for it. -/
def Obligations.EachItemHasOnlyItsWriters : Prop :=
  ∀ (i : Instr) (s t : State), exec i s = .next t →
    (t.ddram ≠ s.ddram → i = .clear ∨ (∃ v, i = .wdata v) ∧ s.mode = .ddram) ∧
    (t.cgram ≠ s.cgram → (∃ v, i = .wdata v) ∧ s.mode = .cgram) ∧
    (t.ac ≠ s.ac → (∃ a, i = .setdd a) ∨ (∃ a, i = .setcg a) ∨ i = .curl ∨ i = .curr ∨ i = .home ∨
      i = .clear ∨ (∃ v, i = .wdata v) ∨ i = .rdata) ∧
    (t.mode ≠ s.mode → (∃ a, i = .setdd a) ∨ (∃ a, i = .setcg a) ∨ i = .home ∨ i = .clear) ∧
    (t.id ≠ s.id → (∃ m f, i = .entry m f) ∨ i = .clear) ∧
    (t.s ≠ s.s → ∃ m f, i = .entry m f) ∧
    (t.d ≠ s.d ∨ t.c ≠ s.c ∨ t.b ≠ s.b → ∃ d c b, i = .dispctl d c b) ∧
    (t.sh ≠ s.sh → i = .dspl ∨ i = .dspr ∨ i = .home ∨ (∃ v, i = .wdata v) ∧ s.mode = .ddram ∧ s.s = true)

/-- R20, R56, R57, R146: memory byte by byte. An instruction that is neither CLEAR nor WDATA changes no byte (R20, the
column "written by"); CLEAR changes no byte of glyph memory (R131, the spec's decision D26, log 29); WDATA stores its byte
at the effective address of the counter and the mode, and every other byte of both banks stays. The premise that memory
is canonical is the model's (log 25). -/
def Obligations.EveryOtherByteOfMemoryStays : Prop :=
  ∀ (i : Instr) (s t : State), s.MemoryOk → exec i s = .next t →
    ((∀ v, i ≠ .wdata v) → i ≠ .clear → SameBytes s t) ∧
    (i = .clear → ∀ j, t.cgCell j = s.cgCell j) ∧
    (∀ v, i = .wdata v → ∃ at_, s.operandIndex = some at_ ∧
      (s.mode = .ddram → t.ddCell at_ = v ∧ (∀ j, j ≠ at_ → t.ddCell j = s.ddCell j) ∧
        ∀ j, t.cgCell j = s.cgCell j) ∧
      (s.mode = .cgram → t.cgCell at_ = v ∧ (∀ j, j ≠ at_ → t.cgCell j = s.cgCell j) ∧
        ∀ j, t.ddCell j = s.ddCell j))

/-- R12, R66, R82: the address read and the five queries change no state: in every state they answer, and only what is
driven differs. -/
def Obligations.QueriesAndAddressReadChangeNoState : Prop :=
  ∀ (i : Instr) (s : State),
    i = .raddr ∨ i = .qnpx ∨ i = .qnpy ∨ (∃ x y, i = .qgeom x y) ∨ (∃ px py bp, i = .qpix px py bp) ∨ i = .qupd →
    ∃ o, exec i s = .next { s with out := o }

/-- R5, R33: the construction parameters never change, and an instruction leaves the words still to come (log 1, log 3). -/
def Obligations.ConfigurationNeverChanges : Prop :=
  (∀ (i : Instr) (s t : State), exec i s = .next t → SameHost s t) ∧
  (∀ s t : State, step s = .next t → t.cfg = s.cfg ∧ ∃ w, s.inbox = w :: t.inbox)

/-- R40: an output is not held: no instruction's behaviour depends on what an earlier step drove (the field of log 5),
and what is driven depends on no word still waiting. -/
def Obligations.OutputsAndWaitingWordsAreNotRead : Prop :=
  ∀ (i : Instr) (s : State) (o : Output) (r : List PortWord),
    exec i { s with out := o } = exec i s ∧
    (∀ t, exec i s = .next t → exec i { s with inbox := r } = .next { t with inbox := r })

/-- The model's choice of log 11 (R56: the primitives "are never called with an invalid address"): exactly when an
instruction faults; none is ever refused. -/
def Obligations.FaultExactlyAtAnInvalidCounter : Prop :=
  ∀ (i : Instr) (s : State),
    (∀ f, exec i s = .fault f ↔ f = .ddAddressNotValid s.ac ∧ s.mode = .ddram ∧ validDd s.cfg.raw s.ac = false ∧
      (i = .curl ∨ i = .curr ∨ i = .rdata ∨ ∃ v, i = .wdata v)) ∧
    (∀ r, exec i s ≠ .refused r)
end

