-- ==== Sys2Proof/Laws/Tables.lean ====
section
/-! SUPPORT. What a well-formed configuration gives: the conjuncts of R21 and R51 in the form proofs use. -/

namespace Sys2Proof

/-- The check of R21, spelled out. -/
theorem RawConfig.dimensionsOk_iff {c : RawConfig} :
    c.dimensionsOk = true ↔ 1 ≤ c.w ∧ c.w ≤ 40 ∧ 1 ≤ c.h ∧ c.h ≤ c.maxRows ∧
      (c.maxRows = 2 ∨ c.maxRows = 4) ∧ (c.h ≤ 2 ∨ 2 * c.w ≤ 40) := by
  simp [RawConfig.dimensionsOk, and_assoc]

/-- The constraints of R51, spelled out. -/
theorem RawConfig.tablesOk_iff {c : RawConfig} :
    c.tablesOk = true ↔ c.lineBase0 = 0 ∧ c.lineBase0 + 40 ≤ c.lineBase1 ∧ c.lineBase1 + 40 ≤ 128 ∧
      c.rows.length = c.h ∧ (∀ r ∈ c.rows, r.col0 < 40) ∧ rowsDisjoint c.w c.rows = true := by
  simp [RawConfig.tablesOk, and_assoc]

theorem RawConfig.portsOk_iff {c : RawConfig} : c.portsOk = true ↔ c.npx ≤ 65536 ∧ c.npy ≤ 65536 := by
  simp [RawConfig.portsOk]

theorem RawConfig.wellFormed_iff {c : RawConfig} :
    c.wellFormed = true ↔ c.dimensionsOk = true ∧ c.tablesOk = true ∧ c.portsOk = true := by
  simp [RawConfig.wellFormed, and_assoc]

variable (k : Config)

theorem Config.dimensions : 1 ≤ k.raw.w ∧ k.raw.w ≤ 40 ∧ 1 ≤ k.raw.h ∧ k.raw.h ≤ k.raw.maxRows ∧
    (k.raw.maxRows = 2 ∨ k.raw.maxRows = 4) ∧ (k.raw.h ≤ 2 ∨ 2 * k.raw.w ≤ 40) :=
  RawConfig.dimensionsOk_iff.1 (RawConfig.wellFormed_iff.1 k.ok).1

theorem Config.tables : k.raw.lineBase0 = 0 ∧ k.raw.lineBase0 + 40 ≤ k.raw.lineBase1 ∧
    k.raw.lineBase1 + 40 ≤ 128 ∧ k.raw.rows.length = k.raw.h ∧ (∀ r ∈ k.raw.rows, r.col0 < 40) ∧
    rowsDisjoint k.raw.w k.raw.rows = true :=
  RawConfig.tablesOk_iff.1 (RawConfig.wellFormed_iff.1 k.ok).2.1

@[simp] theorem RawConfig.lineBase_zero (c : RawConfig) : c.lineBase 0 = c.lineBase0 := rfl

@[simp] theorem RawConfig.lineBase_one (c : RawConfig) : c.lineBase 1 = c.lineBase1 := rfl

/-- Every valid address fits 7 bits (R51). -/
theorem Config.lineBase_add_lt (l : Line) : k.raw.lineBase l + 40 ≤ 128 := by
  have h := k.tables
  match l with
  | 0 => rw [RawConfig.lineBase_zero]; omega
  | 1 => rw [RawConfig.lineBase_one]; omega

/-- Within the screen the row table has an entry, the one `row` gives. -/
theorem Config.row_mem {y : Nat} (hy : y < k.raw.h) : k.raw.row y ∈ k.raw.rows := by
  have hl := k.tables.2.2.2.1
  rw [RawConfig.row, List.getD_eq_getElem _ _ (by omega)]
  exact List.getElem_mem _

theorem Config.row_col0_lt {y : Nat} (hy : y < k.raw.h) : (k.raw.row y).col0 < 40 :=
  k.tables.2.2.2.2.1 _ (k.row_mem hy)

end Sys2Proof
end

