-- ==== Sys2Proof/Laws/Address.lean ====
section
/-! SUPPORT. The address functions of 20_memory.md: lines, columns, storage indices, and what each function can answer
under a well-formed configuration. -/

namespace Sys2Proof.Machine

theorem inLine_iff {c : RawConfig} {l : Line} {a : Addr} :
    inLine c l a = true ↔ c.lineBase l ≤ a.toNat ∧ a.toNat < c.lineBase l + 40 := by
  simp [inLine]

theorem validDd_iff {c : RawConfig} {a : Addr} : validDd c a = true ↔ ∃ l, inLine c l a = true := by
  rw [validDd, Bool.or_eq_true]
  constructor
  · rintro (h | h)
    · exact ⟨0, h⟩
    · exact ⟨1, h⟩
  · rintro ⟨l, h⟩
    match l with
    | 0 => exact .inl h
    | 1 => exact .inr h

/-- `LINE_OF` is unique by R51. -/
theorem lineOf_eq_some_iff (k : Config) {l : Line} {a : Addr} :
    lineOf k.raw a = some l ↔ inLine k.raw l a = true := by
  have ht := k.tables
  unfold lineOf
  by_cases h0 : inLine k.raw 0 a = true
  · rw [if_pos h0]
    match l with
    | 0 => simp [h0]
    | 1 =>
      have h1 : ¬ inLine k.raw 1 a = true := by
        rw [inLine_iff] at h0 ⊢
        simp only [RawConfig.lineBase_zero, RawConfig.lineBase_one] at h0 ⊢
        omega
      simp [h1]
  · rw [if_neg h0]
    by_cases h1 : inLine k.raw 1 a = true
    · rw [if_pos h1]
      match l with
      | 0 => simp [h0]
      | 1 => simp [h1]
    · rw [if_neg h1]
      match l with
      | 0 => simp [h0]
      | 1 => simp [h1]

theorem lineOf_eq_none_iff {c : RawConfig} {a : Addr} : lineOf c a = none ↔ validDd c a = false := by
  unfold lineOf validDd
  by_cases h0 : inLine c 0 a = true <;> by_cases h1 : inLine c 1 a = true <;> simp [h0, h1]

/-- A column of a line is an address of 7 bits. -/
theorem toNat_lineAddr (k : Config) (l : Line) {col : Nat} (h : col < 40) :
    (BitVec.ofNat 7 (k.raw.lineBase l + col)).toNat = k.raw.lineBase l + col := by
  have := k.lineBase_add_lt l
  rw [BitVec.toNat_ofNat, Nat.mod_eq_of_lt (by omega)]

/-- Column `col` of line `l` lies in line `l`. -/
theorem inLine_lineAddr (k : Config) (l : Line) {col : Nat} (h : col < 40) :
    inLine k.raw l (BitVec.ofNat 7 (k.raw.lineBase l + col)) = true := by
  rw [inLine_iff, toNat_lineAddr k l h]
  omega

theorem lineOf_lineAddr (k : Config) (l : Line) {col : Nat} (h : col < 40) :
    lineOf k.raw (BitVec.ofNat 7 (k.raw.lineBase l + col)) = some l :=
  (lineOf_eq_some_iff k).2 (inLine_lineAddr k l h)

theorem colOf_lineAddr (k : Config) (l : Line) {col : Nat} (h : col < 40) :
    colOf k.raw l (BitVec.ofNat 7 (k.raw.lineBase l + col)) = col := by
  rw [colOf, toNat_lineAddr k l h]
  omega

/-- A valid address is a column of one line. -/
theorem exists_lineAddr (k : Config) {a : Addr} (h : validDd k.raw a = true) :
    ∃ l col, col < 40 ∧ a = BitVec.ofNat 7 (k.raw.lineBase l + col) := by
  obtain ⟨l, hl⟩ := validDd_iff.1 h
  rw [inLine_iff] at hl
  refine ⟨l, a.toNat - k.raw.lineBase l, by omega, ?_⟩
  rw [show k.raw.lineBase l + (a.toNat - k.raw.lineBase l) = a.toNat by omega]
  simp

theorem idx_lineAddr (k : Config) (l : Line) {col : Nat} (h : col < 40) :
    idx k.raw (BitVec.ofNat 7 (k.raw.lineBase l + col)) = some (40 * l.val + col) := by
  rw [idx, lineOf_lineAddr k l h]
  simp [colOf_lineAddr k l h]

theorem idx_eq_none_iff {c : RawConfig} {a : Addr} : idx c a = none ↔ validDd c a = false := by
  rw [← lineOf_eq_none_iff, idx]
  split <;> simp [*]

/-- A storage index is one of the 80. -/
theorem idx_lt (k : Config) {a : Addr} {i : Nat} (h : idx k.raw a = some i) : i < 80 := by
  have hv : validDd k.raw a = true := by
    cases hh : validDd k.raw a
    · rw [idx_eq_none_iff.2 hh] at h
      cases h
    · rfl
  obtain ⟨l, col, hc, rfl⟩ := exists_lineAddr k hv
  rw [idx_lineAddr k l hc] at h
  have := l.isLt
  cases h
  omega

@[simp] theorem deltaOf_inc : deltaOf .inc = 1 := rfl

@[simp] theorem deltaOf_dec : deltaOf .dec = -1 := rfl

/-- One step up with the floor modulus. -/
theorem wrapStep_inc (n x : Nat) : wrapStep n x .inc = (x + 1) % n := by
  have h : ((x : Int) + 1) % (n : Int) = (((x + 1) % n : Nat) : Int) := by push_cast; rfl
  rw [wrapStep, deltaOf_inc, h, Int.toNat_natCast]

/-- One step down with the floor modulus: from 0 to `n - 1`. -/
theorem wrapStep_dec {n x : Nat} (hx : x < n) : wrapStep n x .dec = (x + (n - 1)) % n := by
  rw [wrapStep, deltaOf_dec]
  by_cases h : x = 0
  · subst h
    have hn : (((0 : Nat) : Int) + -1) % (n : Int) = ((n - 1 : Nat) : Int) := by
      rw [show (((0 : Nat) : Int) + -1) = ((n - 1 : Nat) : Int) + (n : Int) * (-1) by omega,
        Int.add_mul_emod_self_left, Int.emod_eq_of_lt (by omega) (by omega)]
    rw [hn, Nat.zero_add, Nat.mod_eq_of_lt (by omega)]
    simp
  · rw [show x + (n - 1) = (x - 1) + n by omega, Nat.add_mod_right, Nat.mod_eq_of_lt (by omega),
      Int.emod_eq_of_lt (by omega) (by omega)]
    omega

theorem wrapStep_lt {n : Nat} (hn : 0 < n) (x : Nat) (dir : Dir) : wrapStep n x dir < n := by
  have h0 := Int.emod_nonneg ((x : Int) + deltaOf dir) (b := (n : Int)) (by omega)
  have h1 := Int.emod_lt_of_pos ((x : Int) + deltaOf dir) (b := (n : Int)) (by omega)
  unfold wrapStep
  omega

/-- Everything `ADV` can answer in CGRAM mode. -/
theorem adv_cgram (c : RawConfig) (ac : Addr) (dir : Dir) :
    adv c ac .cgram dir = .ok (BitVec.ofNat 7 (wrapStep 64 ac.toNat dir)) := rfl

/-- Everything `ADV` can answer at a valid DDRAM address: the neighbouring column of the same line. -/
theorem adv_ddram_lineAddr (k : Config) (l : Line) {col : Nat} (h : col < 40) (dir : Dir) :
    adv k.raw (BitVec.ofNat 7 (k.raw.lineBase l + col)) .ddram dir =
      .ok (BitVec.ofNat 7 (k.raw.lineBase l + wrapStep 40 col dir)) := by
  rw [adv, lineOf_lineAddr k l h]
  simp [colOf_lineAddr k l h]

/-- `ADV` has no answer in DDRAM mode exactly at an invalid address. -/
theorem adv_ddram_eq_error_iff (c : RawConfig) (ac : Addr) (dir : Dir) (f : Fault) :
    adv c ac .ddram dir = .error f ↔ validDd c ac = false ∧ f = .ddAddressNotValid ac := by
  rw [← lineOf_eq_none_iff, adv]
  cases h : lineOf c ac <;> simp [eq_comm]

/-- The column `CELL_ADDR` shows is one of the line's 40. -/
theorem cellAddr_eq (c : RawConfig) (sh : BitVec 6) (x y : Nat) :
    cellAddr c sh x y =
      BitVec.ofNat 7 (c.lineBase (c.row y).line + ((c.row y).col0 + x + sh.toNat) % 40) := rfl

end Sys2Proof.Machine
end

