-- ==== Sys2Proof/Laws/Memory.lean ====
section
/-! SUPPORT. The laws of one bank: a read after a write, the canonical form and what keeps it, and that canonical banks
with the same bytes are the same list. -/

namespace Sys2Proof.Machine

variable {d : Byte} {size : Nat}

@[simp] theorem Memory.read_nil (i : Nat) : Memory.read d [] i = d := rfl

@[simp] theorem Memory.wf_nil : Memory.wf d size [] = true := rfl

theorem Memory.wfFrom_cons {lo k : Nat} {b : Byte} {rest : Memory} :
    Memory.wfFrom d size lo ((k, b) :: rest) = true ↔
      lo ≤ k ∧ k < size ∧ b ≠ d ∧ Memory.wfFrom d size (k + 1) rest = true := by
  simp [Memory.wfFrom, and_assoc]

/-- A canonical list may be seen from any lower start. -/
theorem Memory.wfFrom_mono {m : Memory} {lo lo' : Nat} (h : lo' ≤ lo)
    (hw : Memory.wfFrom d size lo m = true) : Memory.wfFrom d size lo' m = true := by
  cases m with
  | nil => rfl
  | cons cell rest =>
    obtain ⟨k, b⟩ := cell
    rw [Memory.wfFrom_cons] at hw ⊢
    exact ⟨by omega, hw.2⟩

/-- Below its start a canonical list has no cell. -/
theorem Memory.read_below {m : Memory} {lo i : Nat} (hw : Memory.wfFrom d size lo m = true) (hi : i < lo) :
    Memory.read d m i = d := by
  induction m generalizing lo with
  | nil => rfl
  | cons cell rest ih =>
    obtain ⟨k, b⟩ := cell
    rw [Memory.wfFrom_cons] at hw
    simp only [Memory.read]
    rw [if_neg (by omega)]
    exact ih hw.2.2.2 (by omega)

/-- Past the end of the bank a canonical list has no cell. -/
theorem Memory.read_beyond {m : Memory} {lo i : Nat} (hw : Memory.wfFrom d size lo m = true) (hi : size ≤ i) :
    Memory.read d m i = d := by
  induction m generalizing lo with
  | nil => rfl
  | cons cell rest ih =>
    obtain ⟨k, b⟩ := cell
    rw [Memory.wfFrom_cons] at hw
    simp only [Memory.read]
    rw [if_neg (by omega)]
    exact ih hw.2.2.2

theorem Memory.read_consCell {i j : Nat} {v : Byte} {rest : Memory}
    (h : i = j → Memory.read d rest i = d) :
    Memory.read d (Memory.consCell d i v rest) j = if j = i then v else Memory.read d rest j := by
  unfold Memory.consCell
  by_cases hj : j = i
  · subst hj
    by_cases hv : v = d <;> simp [hv, Memory.read, h]
  · by_cases hv : v = d <;> simp [hv, Memory.read, hj, Ne.symm hj]

/-- The write law from any start: the written index reads as written, every other as before. -/
theorem Memory.read_write_from {m : Memory} {lo i j : Nat} {v : Byte}
    (hw : Memory.wfFrom d size lo m = true) :
    Memory.read d (Memory.write d m i v) j = if j = i then v else Memory.read d m j := by
  induction m generalizing lo with
  | nil => exact Memory.read_consCell fun _ => rfl
  | cons cell rest ih =>
    obtain ⟨k, b⟩ := cell
    have hc := Memory.wfFrom_cons.1 hw
    simp only [Memory.write]
    split
    · have hlow : Memory.wfFrom d size k ((k, b) :: rest) = true :=
        Memory.wfFrom_cons.2 ⟨Nat.le_refl k, hc.2⟩
      exact Memory.read_consCell fun _ => Memory.read_below hlow ‹i < k›
    · split
      · subst_vars
        rw [Memory.read_consCell fun _ => Memory.read_below hc.2.2.2 (Nat.lt_succ_self _)]
        by_cases hj : j = k
        · simp [hj]
        · simp [hj, Memory.read, Ne.symm hj]
      · simp only [Memory.read]
        by_cases hk : k = j
        · subst hk
          simp [Ne.symm ‹¬i = k›]
        · simp [hk, ih hc.2.2.2]

/-- A read after a write (R56). -/
theorem Memory.read_write {m : Memory} {i j : Nat} {v : Byte} (hw : Memory.wf d size m = true) :
    Memory.read d (Memory.write d m i v) j = if j = i then v else Memory.read d m j :=
  Memory.read_write_from hw

theorem Memory.wfFrom_consCell {lo i : Nat} {v : Byte} {rest : Memory} (hlo : lo ≤ i) (hi : i < size)
    (hr : Memory.wfFrom d size (i + 1) rest = true) :
    Memory.wfFrom d size lo (Memory.consCell d i v rest) = true := by
  unfold Memory.consCell
  split
  · exact Memory.wfFrom_mono (by omega) hr
  · exact Memory.wfFrom_cons.2 ⟨hlo, hi, ‹_›, hr⟩

theorem Memory.wfFrom_write {m : Memory} {lo i : Nat} {v : Byte} (hw : Memory.wfFrom d size lo m = true)
    (hlo : lo ≤ i) (hi : i < size) : Memory.wfFrom d size lo (Memory.write d m i v) = true := by
  induction m generalizing lo with
  | nil => exact Memory.wfFrom_consCell hlo hi rfl
  | cons cell rest ih =>
    obtain ⟨k, b⟩ := cell
    have hc := Memory.wfFrom_cons.1 hw
    simp only [Memory.write]
    split
    · exact Memory.wfFrom_consCell hlo hi (Memory.wfFrom_cons.2 ⟨by omega, hc.2⟩)
    · split
      · subst_vars
        exact Memory.wfFrom_consCell hlo hi hc.2.2.2
      · exact Memory.wfFrom_cons.2 ⟨hc.1, hc.2.1, hc.2.2.1, ih hc.2.2.2 (by omega)⟩

/-- A write inside the bank keeps the canonical form. -/
theorem Memory.wf_write {m : Memory} {i : Nat} {v : Byte} (hw : Memory.wf d size m = true) (hi : i < size) :
    Memory.wf d size (Memory.write d m i v) = true :=
  Memory.wfFrom_write hw (Nat.zero_le i) hi

theorem Memory.wfFrom_map_range' {v : Byte} (hv : v ≠ d) (n lo : Nat) (h : lo + n ≤ size) :
    Memory.wfFrom d size lo ((List.range' lo n).map fun i => (i, v)) = true := by
  induction n generalizing lo with
  | zero => rfl
  | succ n ih =>
    rw [List.range'_succ, List.map_cons, Memory.wfFrom_cons]
    exact ⟨Nat.le_refl lo, by omega, hv, ih (lo + 1) (by omega)⟩

/-- Filling the bank gives a canonical list. -/
theorem Memory.wf_fill (v : Byte) : Memory.wf d size (Memory.fill d size v) = true := by
  unfold Memory.fill
  split
  · rfl
  · rw [List.range_eq_range']
    exact Memory.wfFrom_map_range' ‹_› size 0 (by omega)

theorem Memory.read_map_range' {v : Byte} (n lo i : Nat) (h : lo ≤ i ∧ i < lo + n) :
    Memory.read d ((List.range' lo n).map fun i => (i, v)) i = v := by
  induction n generalizing lo with
  | zero => omega
  | succ n ih =>
    rw [List.range'_succ, List.map_cons]
    simp only [Memory.read]
    split
    · rfl
    · exact ih (lo + 1) (by omega)

/-- Every index of a filled bank reads as the fill byte (R131). -/
theorem Memory.read_fill {v : Byte} {i : Nat} (hi : i < size) : Memory.read d (Memory.fill d size v) i = v := by
  unfold Memory.fill
  split
  · exact ‹v = d›.symm
  · rw [List.range_eq_range']
    exact Memory.read_map_range' size 0 i (by omega)

/-- Equal bytes, equal lists: the canonical form has one list for each contents. -/
theorem Memory.ext_from {m m' : Memory} {lo : Nat} (hw : Memory.wfFrom d size lo m = true)
    (hw' : Memory.wfFrom d size lo m' = true) (h : ∀ i, Memory.read d m i = Memory.read d m' i) : m = m' := by
  induction m generalizing m' lo with
  | nil =>
    cases m' with
    | nil => rfl
    | cons cell rest =>
      obtain ⟨k, b⟩ := cell
      have := h k
      simp [Memory.read, (Memory.wfFrom_cons.1 hw').2.2.1.symm] at this
  | cons cell rest ih =>
    obtain ⟨k, b⟩ := cell
    have hc := Memory.wfFrom_cons.1 hw
    cases m' with
    | nil =>
      have := h k
      simp [Memory.read, hc.2.2.1] at this
    | cons cell' rest' =>
      obtain ⟨k', b'⟩ := cell'
      have hc' := Memory.wfFrom_cons.1 hw'
      have hk : k = k' := by
        rcases Nat.lt_trichotomy k k' with hlt | heq | hgt
        · have hh := h k
          rw [Memory.read_below (lo := k') (Memory.wfFrom_cons.2 ⟨Nat.le_refl _, hc'.2⟩) hlt] at hh
          simp [Memory.read, hc.2.2.1] at hh
        · exact heq
        · have hh := h k'
          rw [Memory.read_below (lo := k) (Memory.wfFrom_cons.2 ⟨Nat.le_refl _, hc.2⟩) hgt] at hh
          simp [Memory.read, hc'.2.2.1.symm] at hh
      subst hk
      have hb : b = b' := by
        have := h k
        simpa [Memory.read] using this
      subst hb
      congr 1
      refine ih hc.2.2.2 hc'.2.2.2 fun i => ?_
      have hi := h i
      simp only [Memory.read] at hi
      by_cases hik : k = i
      · subst hik
        rw [Memory.read_below hc.2.2.2 (Nat.lt_succ_self k), Memory.read_below hc'.2.2.2 (Nat.lt_succ_self k)]
      · simpa [hik] using hi

/-- Two canonical banks that read alike inside the bank are the same list. -/
theorem Memory.ext {m m' : Memory} (hw : Memory.wf d size m = true) (hw' : Memory.wf d size m' = true)
    (h : ∀ i, i < size → Memory.read d m i = Memory.read d m' i) : m = m' := by
  refine Memory.ext_from hw hw' fun i => ?_
  by_cases hi : i < size
  · exact h i hi
  · rw [Memory.read_beyond hw (by omega), Memory.read_beyond hw' (by omega)]

end Sys2Proof.Machine
end

