-- ==== Sys2Proof/Laws/State.lean ====
section
/-! SUPPORT. What each update of the state does to each field, by `rfl`, so that no proof unfolds a record update. -/

namespace Sys2Proof.Machine

variable (q : State)

/-! ### setAc -/

@[simp] theorem State.setAc_cfg (a : Addr) : (q.setAc a).cfg = q.cfg := rfl
@[simp] theorem State.setAc_ddram (a : Addr) : (q.setAc a).ddram = q.ddram := rfl
@[simp] theorem State.setAc_cgram (a : Addr) : (q.setAc a).cgram = q.cgram := rfl
@[simp] theorem State.setAc_ac (a : Addr) : (q.setAc a).ac = a := rfl
@[simp] theorem State.setAc_mode (a : Addr) : (q.setAc a).mode = q.mode := rfl
@[simp] theorem State.setAc_id (a : Addr) : (q.setAc a).id = q.id := rfl
@[simp] theorem State.setAc_s (a : Addr) : (q.setAc a).s = q.s := rfl
@[simp] theorem State.setAc_d (a : Addr) : (q.setAc a).d = q.d := rfl
@[simp] theorem State.setAc_c (a : Addr) : (q.setAc a).c = q.c := rfl
@[simp] theorem State.setAc_b (a : Addr) : (q.setAc a).b = q.b := rfl
@[simp] theorem State.setAc_sh (a : Addr) : (q.setAc a).sh = q.sh := rfl
@[simp] theorem State.setAc_inbox (a : Addr) : (q.setAc a).inbox = q.inbox := rfl
@[simp] theorem State.setAc_out (a : Addr) : (q.setAc a).out = q.out := rfl
@[simp] theorem State.setAc_ddCell (a : Addr) (i : Nat) : (q.setAc a).ddCell i = q.ddCell i := rfl
@[simp] theorem State.setAc_cgCell (a : Addr) (i : Nat) : (q.setAc a).cgCell i = q.cgCell i := rfl

/-! ### point -/

@[simp] theorem State.point_cfg (m : Mode) (a : Addr) : (q.point m a).cfg = q.cfg := rfl
@[simp] theorem State.point_ddram (m : Mode) (a : Addr) : (q.point m a).ddram = q.ddram := rfl
@[simp] theorem State.point_cgram (m : Mode) (a : Addr) : (q.point m a).cgram = q.cgram := rfl
@[simp] theorem State.point_ac (m : Mode) (a : Addr) : (q.point m a).ac = a := rfl
@[simp] theorem State.point_mode (m : Mode) (a : Addr) : (q.point m a).mode = m := rfl
@[simp] theorem State.point_id (m : Mode) (a : Addr) : (q.point m a).id = q.id := rfl
@[simp] theorem State.point_s (m : Mode) (a : Addr) : (q.point m a).s = q.s := rfl
@[simp] theorem State.point_d (m : Mode) (a : Addr) : (q.point m a).d = q.d := rfl
@[simp] theorem State.point_c (m : Mode) (a : Addr) : (q.point m a).c = q.c := rfl
@[simp] theorem State.point_b (m : Mode) (a : Addr) : (q.point m a).b = q.b := rfl
@[simp] theorem State.point_sh (m : Mode) (a : Addr) : (q.point m a).sh = q.sh := rfl
@[simp] theorem State.point_inbox (m : Mode) (a : Addr) : (q.point m a).inbox = q.inbox := rfl
@[simp] theorem State.point_out (m : Mode) (a : Addr) : (q.point m a).out = q.out := rfl
@[simp] theorem State.point_ddCell (m : Mode) (a : Addr) (i : Nat) : (q.point m a).ddCell i = q.ddCell i := rfl
@[simp] theorem State.point_cgCell (m : Mode) (a : Addr) (i : Nat) : (q.point m a).cgCell i = q.cgCell i := rfl

/-! ### setSh -/

@[simp] theorem State.setSh_cfg (v : BitVec 6) : (q.setSh v).cfg = q.cfg := rfl
@[simp] theorem State.setSh_ddram (v : BitVec 6) : (q.setSh v).ddram = q.ddram := rfl
@[simp] theorem State.setSh_cgram (v : BitVec 6) : (q.setSh v).cgram = q.cgram := rfl
@[simp] theorem State.setSh_ac (v : BitVec 6) : (q.setSh v).ac = q.ac := rfl
@[simp] theorem State.setSh_mode (v : BitVec 6) : (q.setSh v).mode = q.mode := rfl
@[simp] theorem State.setSh_id (v : BitVec 6) : (q.setSh v).id = q.id := rfl
@[simp] theorem State.setSh_s (v : BitVec 6) : (q.setSh v).s = q.s := rfl
@[simp] theorem State.setSh_d (v : BitVec 6) : (q.setSh v).d = q.d := rfl
@[simp] theorem State.setSh_c (v : BitVec 6) : (q.setSh v).c = q.c := rfl
@[simp] theorem State.setSh_b (v : BitVec 6) : (q.setSh v).b = q.b := rfl
@[simp] theorem State.setSh_sh (v : BitVec 6) : (q.setSh v).sh = v := rfl
@[simp] theorem State.setSh_inbox (v : BitVec 6) : (q.setSh v).inbox = q.inbox := rfl
@[simp] theorem State.setSh_out (v : BitVec 6) : (q.setSh v).out = q.out := rfl
@[simp] theorem State.setSh_ddCell (v : BitVec 6) (i : Nat) : (q.setSh v).ddCell i = q.ddCell i := rfl
@[simp] theorem State.setSh_cgCell (v : BitVec 6) (i : Nat) : (q.setSh v).cgCell i = q.cgCell i := rfl

/-! ### setDdram -/

@[simp] theorem State.setDdram_cfg (m : Memory) : (q.setDdram m).cfg = q.cfg := rfl
@[simp] theorem State.setDdram_ddram (m : Memory) : (q.setDdram m).ddram = m := rfl
@[simp] theorem State.setDdram_cgram (m : Memory) : (q.setDdram m).cgram = q.cgram := rfl
@[simp] theorem State.setDdram_ac (m : Memory) : (q.setDdram m).ac = q.ac := rfl
@[simp] theorem State.setDdram_mode (m : Memory) : (q.setDdram m).mode = q.mode := rfl
@[simp] theorem State.setDdram_id (m : Memory) : (q.setDdram m).id = q.id := rfl
@[simp] theorem State.setDdram_s (m : Memory) : (q.setDdram m).s = q.s := rfl
@[simp] theorem State.setDdram_d (m : Memory) : (q.setDdram m).d = q.d := rfl
@[simp] theorem State.setDdram_c (m : Memory) : (q.setDdram m).c = q.c := rfl
@[simp] theorem State.setDdram_b (m : Memory) : (q.setDdram m).b = q.b := rfl
@[simp] theorem State.setDdram_sh (m : Memory) : (q.setDdram m).sh = q.sh := rfl
@[simp] theorem State.setDdram_inbox (m : Memory) : (q.setDdram m).inbox = q.inbox := rfl
@[simp] theorem State.setDdram_out (m : Memory) : (q.setDdram m).out = q.out := rfl
@[simp] theorem State.setDdram_cgCell (m : Memory) (i : Nat) : (q.setDdram m).cgCell i = q.cgCell i := rfl

/-! ### setCgram -/

@[simp] theorem State.setCgram_cfg (m : Memory) : (q.setCgram m).cfg = q.cfg := rfl
@[simp] theorem State.setCgram_ddram (m : Memory) : (q.setCgram m).ddram = q.ddram := rfl
@[simp] theorem State.setCgram_cgram (m : Memory) : (q.setCgram m).cgram = m := rfl
@[simp] theorem State.setCgram_ac (m : Memory) : (q.setCgram m).ac = q.ac := rfl
@[simp] theorem State.setCgram_mode (m : Memory) : (q.setCgram m).mode = q.mode := rfl
@[simp] theorem State.setCgram_id (m : Memory) : (q.setCgram m).id = q.id := rfl
@[simp] theorem State.setCgram_s (m : Memory) : (q.setCgram m).s = q.s := rfl
@[simp] theorem State.setCgram_d (m : Memory) : (q.setCgram m).d = q.d := rfl
@[simp] theorem State.setCgram_c (m : Memory) : (q.setCgram m).c = q.c := rfl
@[simp] theorem State.setCgram_b (m : Memory) : (q.setCgram m).b = q.b := rfl
@[simp] theorem State.setCgram_sh (m : Memory) : (q.setCgram m).sh = q.sh := rfl
@[simp] theorem State.setCgram_inbox (m : Memory) : (q.setCgram m).inbox = q.inbox := rfl
@[simp] theorem State.setCgram_out (m : Memory) : (q.setCgram m).out = q.out := rfl
@[simp] theorem State.setCgram_ddCell (m : Memory) (i : Nat) : (q.setCgram m).ddCell i = q.ddCell i := rfl

/-! ### drive -/

@[simp] theorem State.drive_cfg (o : Output) : (q.drive o).cfg = q.cfg := rfl
@[simp] theorem State.drive_ddram (o : Output) : (q.drive o).ddram = q.ddram := rfl
@[simp] theorem State.drive_cgram (o : Output) : (q.drive o).cgram = q.cgram := rfl
@[simp] theorem State.drive_ac (o : Output) : (q.drive o).ac = q.ac := rfl
@[simp] theorem State.drive_mode (o : Output) : (q.drive o).mode = q.mode := rfl
@[simp] theorem State.drive_id (o : Output) : (q.drive o).id = q.id := rfl
@[simp] theorem State.drive_s (o : Output) : (q.drive o).s = q.s := rfl
@[simp] theorem State.drive_d (o : Output) : (q.drive o).d = q.d := rfl
@[simp] theorem State.drive_c (o : Output) : (q.drive o).c = q.c := rfl
@[simp] theorem State.drive_b (o : Output) : (q.drive o).b = q.b := rfl
@[simp] theorem State.drive_sh (o : Output) : (q.drive o).sh = q.sh := rfl
@[simp] theorem State.drive_inbox (o : Output) : (q.drive o).inbox = q.inbox := rfl
@[simp] theorem State.drive_out (o : Output) : (q.drive o).out = o := rfl
@[simp] theorem State.drive_ddCell (o : Output) (i : Nat) : (q.drive o).ddCell i = q.ddCell i := rfl
@[simp] theorem State.drive_cgCell (o : Output) (i : Nat) : (q.drive o).cgCell i = q.cgCell i := rfl

/-! ### take -/

@[simp] theorem State.take_cfg (r : List PortWord) : (q.take r).cfg = q.cfg := rfl
@[simp] theorem State.take_ddram (r : List PortWord) : (q.take r).ddram = q.ddram := rfl
@[simp] theorem State.take_cgram (r : List PortWord) : (q.take r).cgram = q.cgram := rfl
@[simp] theorem State.take_ac (r : List PortWord) : (q.take r).ac = q.ac := rfl
@[simp] theorem State.take_mode (r : List PortWord) : (q.take r).mode = q.mode := rfl
@[simp] theorem State.take_id (r : List PortWord) : (q.take r).id = q.id := rfl
@[simp] theorem State.take_s (r : List PortWord) : (q.take r).s = q.s := rfl
@[simp] theorem State.take_d (r : List PortWord) : (q.take r).d = q.d := rfl
@[simp] theorem State.take_c (r : List PortWord) : (q.take r).c = q.c := rfl
@[simp] theorem State.take_b (r : List PortWord) : (q.take r).b = q.b := rfl
@[simp] theorem State.take_sh (r : List PortWord) : (q.take r).sh = q.sh := rfl
@[simp] theorem State.take_inbox (r : List PortWord) : (q.take r).inbox = r := rfl
@[simp] theorem State.take_out (r : List PortWord) : (q.take r).out = q.out := rfl
@[simp] theorem State.take_ddCell (r : List PortWord) (i : Nat) : (q.take r).ddCell i = q.ddCell i := rfl
@[simp] theorem State.take_cgCell (r : List PortWord) (i : Nat) : (q.take r).cgCell i = q.cgCell i := rfl

/-! ### setDisplay -/

@[simp] theorem State.setDisplay_cfg (x y z : Bool) : (q.setDisplay x y z).cfg = q.cfg := rfl
@[simp] theorem State.setDisplay_ddram (x y z : Bool) : (q.setDisplay x y z).ddram = q.ddram := rfl
@[simp] theorem State.setDisplay_cgram (x y z : Bool) : (q.setDisplay x y z).cgram = q.cgram := rfl
@[simp] theorem State.setDisplay_ac (x y z : Bool) : (q.setDisplay x y z).ac = q.ac := rfl
@[simp] theorem State.setDisplay_mode (x y z : Bool) : (q.setDisplay x y z).mode = q.mode := rfl
@[simp] theorem State.setDisplay_id (x y z : Bool) : (q.setDisplay x y z).id = q.id := rfl
@[simp] theorem State.setDisplay_s (x y z : Bool) : (q.setDisplay x y z).s = q.s := rfl
@[simp] theorem State.setDisplay_d (x y z : Bool) : (q.setDisplay x y z).d = x := rfl
@[simp] theorem State.setDisplay_c (x y z : Bool) : (q.setDisplay x y z).c = y := rfl
@[simp] theorem State.setDisplay_b (x y z : Bool) : (q.setDisplay x y z).b = z := rfl
@[simp] theorem State.setDisplay_sh (x y z : Bool) : (q.setDisplay x y z).sh = q.sh := rfl
@[simp] theorem State.setDisplay_inbox (x y z : Bool) : (q.setDisplay x y z).inbox = q.inbox := rfl
@[simp] theorem State.setDisplay_out (x y z : Bool) : (q.setDisplay x y z).out = q.out := rfl
@[simp] theorem State.setDisplay_ddCell (x y z : Bool) (i : Nat) : (q.setDisplay x y z).ddCell i = q.ddCell i := rfl
@[simp] theorem State.setDisplay_cgCell (x y z : Bool) (i : Nat) : (q.setDisplay x y z).cgCell i = q.cgCell i := rfl

/-! ### setEntry -/

@[simp] theorem State.setEntry_cfg (x y : Bool) : (q.setEntry x y).cfg = q.cfg := rfl
@[simp] theorem State.setEntry_ddram (x y : Bool) : (q.setEntry x y).ddram = q.ddram := rfl
@[simp] theorem State.setEntry_cgram (x y : Bool) : (q.setEntry x y).cgram = q.cgram := rfl
@[simp] theorem State.setEntry_ac (x y : Bool) : (q.setEntry x y).ac = q.ac := rfl
@[simp] theorem State.setEntry_mode (x y : Bool) : (q.setEntry x y).mode = q.mode := rfl
@[simp] theorem State.setEntry_id (x y : Bool) : (q.setEntry x y).id = x := rfl
@[simp] theorem State.setEntry_s (x y : Bool) : (q.setEntry x y).s = y := rfl
@[simp] theorem State.setEntry_d (x y : Bool) : (q.setEntry x y).d = q.d := rfl
@[simp] theorem State.setEntry_c (x y : Bool) : (q.setEntry x y).c = q.c := rfl
@[simp] theorem State.setEntry_b (x y : Bool) : (q.setEntry x y).b = q.b := rfl
@[simp] theorem State.setEntry_sh (x y : Bool) : (q.setEntry x y).sh = q.sh := rfl
@[simp] theorem State.setEntry_inbox (x y : Bool) : (q.setEntry x y).inbox = q.inbox := rfl
@[simp] theorem State.setEntry_out (x y : Bool) : (q.setEntry x y).out = q.out := rfl
@[simp] theorem State.setEntry_ddCell (x y : Bool) (i : Nat) : (q.setEntry x y).ddCell i = q.ddCell i := rfl
@[simp] theorem State.setEntry_cgCell (x y : Bool) (i : Nat) : (q.setEntry x y).cgCell i = q.cgCell i := rfl

/-! ### forceIncrement -/

@[simp] theorem State.forceIncrement_cfg : (q.forceIncrement).cfg = q.cfg := rfl
@[simp] theorem State.forceIncrement_ddram : (q.forceIncrement).ddram = q.ddram := rfl
@[simp] theorem State.forceIncrement_cgram : (q.forceIncrement).cgram = q.cgram := rfl
@[simp] theorem State.forceIncrement_ac : (q.forceIncrement).ac = q.ac := rfl
@[simp] theorem State.forceIncrement_mode : (q.forceIncrement).mode = q.mode := rfl
@[simp] theorem State.forceIncrement_id : (q.forceIncrement).id = true := rfl
@[simp] theorem State.forceIncrement_s : (q.forceIncrement).s = q.s := rfl
@[simp] theorem State.forceIncrement_d : (q.forceIncrement).d = q.d := rfl
@[simp] theorem State.forceIncrement_c : (q.forceIncrement).c = q.c := rfl
@[simp] theorem State.forceIncrement_b : (q.forceIncrement).b = q.b := rfl
@[simp] theorem State.forceIncrement_sh : (q.forceIncrement).sh = q.sh := rfl
@[simp] theorem State.forceIncrement_inbox : (q.forceIncrement).inbox = q.inbox := rfl
@[simp] theorem State.forceIncrement_out : (q.forceIncrement).out = q.out := rfl
@[simp] theorem State.forceIncrement_ddCell (i : Nat) : (q.forceIncrement).ddCell i = q.ddCell i := rfl
@[simp] theorem State.forceIncrement_cgCell (i : Nat) : (q.forceIncrement).cgCell i = q.cgCell i := rfl

/-! ### Construction -/

@[simp] theorem State.init_cfg (k : Config) : (State.init k).cfg = k := rfl
@[simp] theorem State.init_ddram (k : Config) : (State.init k).ddram = [] := rfl
@[simp] theorem State.init_cgram (k : Config) : (State.init k).cgram = [] := rfl
@[simp] theorem State.init_ac (k : Config) : (State.init k).ac = 0 := rfl
@[simp] theorem State.init_mode (k : Config) : (State.init k).mode = .ddram := rfl
@[simp] theorem State.init_id (k : Config) : (State.init k).id = true := rfl
@[simp] theorem State.init_s (k : Config) : (State.init k).s = false := rfl
@[simp] theorem State.init_d (k : Config) : (State.init k).d = false := rfl
@[simp] theorem State.init_c (k : Config) : (State.init k).c = false := rfl
@[simp] theorem State.init_b (k : Config) : (State.init k).b = false := rfl
@[simp] theorem State.init_sh (k : Config) : (State.init k).sh = 0 := rfl
@[simp] theorem State.init_inbox (k : Config) : (State.init k).inbox = [] := rfl
@[simp] theorem State.init_out (k : Config) : (State.init k).out = .undriven := rfl
@[simp] theorem State.init_ddCell (k : Config) (i : Nat) : (State.init k).ddCell i = k.raw.ddramResetByte := rfl
@[simp] theorem State.init_cgCell (k : Config) (i : Nat) : (State.init k).cgCell i = 0x00#8 := rfl

/-- What a step drives is recorded once: the later record stands. -/
@[simp] theorem State.drive_drive (o o' : Output) : (q.drive o).drive o' = q.drive o' := rfl

/-! ### fillDdram -/

theorem State.fillDdram_eq (v : Byte) :
    q.fillDdram v = q.setDdram (Memory.fill (resetByte q.cfg.raw .dd) 80 v) := rfl

end Sys2Proof.Machine
end

