-- ==== Sys2Proof/Laws/Ops.lean ====
section
/-! SUPPORT. One lemma for each shared operation that says everything it can do. -/

namespace Sys2Proof.Machine

@[simp] theorem withOk_ok {α : Type} (v : α) (k : α → Result) : withOk (.ok v) k = k v := rfl

@[simp] theorem withOk_error {α : Type} (f : Fault) (k : α → Result) : withOk (.error f) k = .fault f := rfl

/-- A meaning that goes through `withOk` answers next only through its value. -/
theorem withOk_eq_next {α : Type} {x : Except Fault α} {k : α → Result} {t : State} :
    withOk x k = .next t ↔ ∃ v, x = .ok v ∧ k v = .next t := by
  cases x <;> simp [withOk]

/-- ... and faults either there or later. -/
theorem withOk_eq_fault {α : Type} {x : Except Fault α} {k : α → Result} {f : Fault} :
    withOk x k = .fault f ↔ x = .error f ∨ ∃ v, x = .ok v ∧ k v = .fault f := by
  cases x <;> simp [withOk]

@[simp] theorem memRead_cg (s : State) (a : Addr) : s.memRead .cg a = .ok (s.cgCell (a.toNat % 64)) := rfl

/-- Everything a read of display memory can answer. -/
theorem memRead_dd_cases (s : State) (a : Addr) :
    (∃ i, idx s.cfg.raw a = some i ∧ i < 80 ∧ s.memRead .dd a = .ok (s.ddCell i)) ∨
    (validDd s.cfg.raw a = false ∧ s.memRead .dd a = .error (.ddAddressNotValid a)) := by
  unfold State.memRead
  cases h : idx s.cfg.raw a with
  | none => exact .inr ⟨idx_eq_none_iff.1 h, rfl⟩
  | some i => exact .inl ⟨i, rfl, idx_lt s.cfg h, rfl⟩

@[simp] theorem memWrite_cg (s : State) (a : Addr) (v : Byte) :
    s.memWrite .cg a v = .ok (s.setCgram (Memory.write 0x00#8 s.cgram (a.toNat % 64) v)) := rfl

/-- Everything a write to display memory can answer. -/
theorem memWrite_dd_cases (s : State) (a : Addr) (v : Byte) :
    (∃ i, idx s.cfg.raw a = some i ∧ i < 80 ∧
      s.memWrite .dd a v = .ok (s.setDdram (Memory.write s.cfg.raw.ddramResetByte s.ddram i v))) ∨
    (validDd s.cfg.raw a = false ∧ s.memWrite .dd a v = .error (.ddAddressNotValid a)) := by
  unfold State.memWrite
  cases h : idx s.cfg.raw a with
  | none => exact .inr ⟨idx_eq_none_iff.1 h, rfl⟩
  | some i => exact .inl ⟨i, rfl, idx_lt s.cfg h, rfl⟩

/-- The advance answers the state with its counter moved, or the fault of `ADV`. -/
theorem advance_eq_ok_iff (s t : State) (dir : Dir) :
    s.advance dir = .ok t ↔ ∃ a, adv s.cfg.raw s.ac s.mode dir = .ok a ∧ t = s.setAc a := by
  unfold State.advance
  cases adv s.cfg.raw s.ac s.mode dir <;> simp [eq_comm]

theorem advance_eq_error_iff (s : State) (dir : Dir) (f : Fault) :
    s.advance dir = .error f ↔ adv s.cfg.raw s.ac s.mode dir = .error f := by
  unfold State.advance
  cases adv s.cfg.raw s.ac s.mode dir <;> simp

@[simp] theorem raise_eq (s : State) (c : Condition) : s.raise c = .next (s.drive (.failed c)) := rfl

theorem toNat_zext7 (a : BitVec 6) : (zext7 a).toNat = a.toNat := by
  have h := a.isLt
  unfold zext7
  rw [BitVec.toNat_append]
  simp

end Sys2Proof.Machine
end

