-- ==== Sys2Proof/Laws/Exec.lean ====
section
/-! SUPPORT. One lemma for each meaning that goes through a shared operation: everything it can do when it answers a next
state. The other meanings are updates of the state as they stand. -/

namespace Sys2Proof.Machine

/-- Where `NORM_DD` lands: a column of the line the field belongs to (R58). -/
theorem normDd_eq_lineAddr (k : Config) (a : BitVec 7) :
    normDd k.raw a = if k.raw.lineBase1 ≤ a.toNat
      then BitVec.ofNat 7 (k.raw.lineBase 1 + (a.toNat - k.raw.lineBase1) % 40)
      else BitVec.ofNat 7 (k.raw.lineBase 0 + a.toNat % 40) := by
  have h0 := k.tables.1
  unfold normDd
  by_cases h : k.raw.lineBase1 ≤ a.toNat <;> simp [h, h0]

/-- `ADV` answers only addresses of its mode (R60). -/
theorem adv_keeps {k : Config} {a a' : Addr} {m : Mode} {dir : Dir} (h : adv k.raw a m dir = .ok a') :
    (m = .ddram → validDd k.raw a' = true) ∧ (m = .cgram → a'.toNat ≤ 63) := by
  cases m with
  | ddram =>
    refine ⟨fun _ => ?_, by simp⟩
    cases hv : validDd k.raw a
    · rw [(adv_ddram_eq_error_iff k.raw a dir (.ddAddressNotValid a)).2 ⟨hv, rfl⟩] at h
      cases h
    · obtain ⟨l, col, hc, rfl⟩ := exists_lineAddr k hv
      rw [adv_ddram_lineAddr k l hc] at h
      cases h
      exact validDd_iff.2 ⟨l, inLine_lineAddr k l (wrapStep_lt (by omega) _ _)⟩
  | cgram =>
    refine ⟨by simp, fun _ => ?_⟩
    cases h
    have := wrapStep_lt (n := 64) (by omega) a.toNat dir
    simp
    omega

/-- `SHMOVE` answers 0..39 (R61). -/
theorem toNat_shmove_lt (sh : BitVec 6) (dir : Dir) : (shmove sh dir).toNat < 40 := by
  have := wrapStep_lt (n := 40) (by omega) sh.toNat dir
  simp only [shmove, lineCap, BitVec.toNat_ofNat]
  omega

/-- Everything a store can do to the state. -/
theorem memWrite_eq_ok {s t : State} {bank : Bank} {a : Addr} {v : Byte} (h : s.memWrite bank a v = .ok t) :
    (bank = .dd ∧ ∃ i, idx s.cfg.raw a = some i ∧ i < 80 ∧
      t = s.setDdram (Memory.write s.cfg.raw.ddramResetByte s.ddram i v)) ∨
    (bank = .cg ∧ t = s.setCgram (Memory.write 0x00#8 s.cgram (a.toNat % 64) v)) := by
  cases bank with
  | dd =>
    obtain ⟨i, h1, h2, h3⟩ | ⟨-, h3⟩ := memWrite_dd_cases s a v <;> rw [h3] at h <;> cases h
    exact .inl ⟨rfl, i, h1, h2, rfl⟩
  | cg =>
    cases h
    exact .inr ⟨rfl, rfl⟩

/-- The two cases of the viewport shift of a write (R141). -/
theorem shiftOnWrite_cases (s : State) :
    s.shiftOnWrite = s ∨ s.s = true ∧ s.mode = .ddram ∧ s.shiftOnWrite = s.setSh (shmove s.sh s.entryDir) := by
  unfold State.shiftOnWrite
  split
  · exact .inr ⟨(‹_ ∧ _›).1, (‹_ ∧ _›).2, rfl⟩
  · exact .inl rfl

/-- The cursor shift answers the counter moved and nothing else, exactly where `ADV` has a value (R110, R111). -/
theorem cursorShift_eq_next_iff {s t : State} {dir : Dir} :
    cursorShift dir s = .next t ↔
      ∃ a, adv s.cfg.raw s.ac s.mode dir = .ok a ∧ t = (s.setAc a).drive .undriven := by
  simp only [cursorShift, withOk_eq_next, advance_eq_ok_iff]
  constructor
  · rintro ⟨_, ⟨a, ha, rfl⟩, h⟩
    cases h
    exact ⟨a, ha, rfl⟩
  · rintro ⟨a, ha, rfl⟩
    exact ⟨_, ⟨a, ha, rfl⟩, rfl⟩

/-- RDATA answers the operand, with the counter moved and nothing else (R143). -/
theorem execRdata_eq_next_iff {s t : State} :
    execRdata s = .next t ↔
      ∃ v a, s.operand = .ok v ∧ adv s.cfg.raw s.ac s.mode s.entryDir = .ok a ∧
        t = (s.setAc a).drive (.dout v) := by
  simp only [execRdata, withOk_eq_next, advance_eq_ok_iff]
  constructor
  · rintro ⟨v, hv, _, ⟨a, ha, rfl⟩, h⟩
    cases h
    exact ⟨v, a, hv, ha, rfl⟩
  · rintro ⟨v, a, hv, ha, rfl⟩
    exact ⟨v, hv, _, ⟨a, ha, rfl⟩, rfl⟩

/-- WDATA stores, moves the counter from its value before the step, and then shifts (R140, R141). -/
theorem execWdata_eq_next {s t : State} {v : Byte} (h : execWdata v s = .next t) :
    ∃ q a, s.storeOperand v = .ok q ∧ adv s.cfg.raw s.ac s.mode s.entryDir = .ok a ∧
      t = (q.setAc a).shiftOnWrite.drive .undriven := by
  simp only [execWdata, withOk_eq_next] at h
  obtain ⟨q, hq, u, hu, ht⟩ := h
  obtain ⟨a, ha, rfl⟩ := (advance_eq_ok_iff _ _ _).1 hu
  cases ht
  refine ⟨q, a, hq, ?_, rfl⟩
  obtain ⟨-, i, -, -, rfl⟩ | ⟨-, rfl⟩ := memWrite_eq_ok hq <;> exact ha

/-- The two answers of QGEOM (R157, R158). -/
theorem execQgeom_cases (x y : Nat) (s : State) :
    (s.cfg.raw.w ≤ x ∨ s.cfg.raw.h ≤ y) ∧ execQgeom x y s = .next (s.drive (.failed .outOfRange)) ∨
    x < s.cfg.raw.w ∧ y < s.cfg.raw.h ∧
      execQgeom x y s = .next (s.drive (.addr (cellAddr s.cfg.raw s.sh x y))) := by
  unfold execQgeom
  split
  · exact .inl ⟨‹_›, rfl⟩
  · exact .inr ⟨by omega, by omega, rfl⟩

/-- The cell read of QPIX never fails: a screen cell shows a valid address (R63). -/
theorem exists_pixelAt (s : State) (px py : Nat) (bp : Bool) : ∃ p, s.pixelAt px py bp = .ok p := by
  have hread (x y : Nat) : ∃ v, s.memRead .dd (cellAddr s.cfg.raw s.sh x y) = .ok v := by
    rw [cellAddr_eq]
    simp only [State.memRead]
    rw [idx_lineAddr s.cfg _ (Nat.mod_lt _ (by omega))]
    exact ⟨_, rfl⟩
  unfold State.pixelAt State.cellPixel
  dsimp only
  obtain ⟨v, hv⟩ := hread (px / s.cfg.raw.pitchX) (py / s.cfg.raw.pitchY)
  rw [hv]
  split
  · exact ⟨_, rfl⟩
  · split
    · split <;> exact ⟨_, rfl⟩
    · exact ⟨_, rfl⟩

/-- QPIX drives a pixel and does nothing else (R165). -/
theorem exists_execQpix (s : State) (px py : Nat) (bp : Bool) :
    ∃ p, s.pixelAt px py bp = .ok p ∧ execQpix px py bp s = .next (s.drive (.pixel p)) := by
  obtain ⟨p, hp⟩ := exists_pixelAt s px py bp
  exact ⟨p, hp, by simp [execQpix, hp]⟩

end Sys2Proof.Machine
end

