-- ==== Sys2Proof/Laws/PerInstr.lean ====
section
/-! SUPPORT. One fact about every instruction as syntax: the word the encoder sends lies in exactly one row of the opcode
table, the row with the instruction's mnemonic (R84, R88). -/

namespace Sys2Proof.Laws.OnItsRow

/-- The mnemonics of the rows a port word lies in. -/
def rowsOf : PortWord → List String
  | .bus w => (busRows.filter fun r => rowMatches r w).map OpcodeRow.mnemonic
  | .query q _ _ _ => (queryRows.filter fun r => rowMatches r q).map OpcodeRow.mnemonic

/-- The encoded word lies in the row of the instruction's mnemonic and in no other. -/
def Statement (i : Instr) : Prop := rowsOf (encode i) = [i.mnemonic]

theorem setdd (a : BitVec 7) : Statement (.setdd a) := by
  unfold Statement
  revert a
  decide

theorem setcg (a : BitVec 6) : Statement (.setcg a) := by
  unfold Statement
  revert a
  decide

theorem rsvd5 : Statement .rsvd5 := by unfold Statement; decide
theorem curl : Statement .curl := by unfold Statement; decide
theorem curr : Statement .curr := by unfold Statement; decide
theorem dspl : Statement .dspl := by unfold Statement; decide
theorem dspr : Statement .dspr := by unfold Statement; decide

theorem dispctl (d c b : Bool) : Statement (.dispctl d c b) := by
  unfold Statement
  revert d c b
  decide

theorem entry (i s : Bool) : Statement (.entry i s) := by
  unfold Statement
  revert i s
  decide

theorem home : Statement .home := by unfold Statement; decide
theorem clear : Statement .clear := by unfold Statement; decide
theorem nop : Statement .nop := by unfold Statement; decide
theorem raddr : Statement .raddr := by unfold Statement; decide

theorem wdata (v : BitVec 8) : Statement (.wdata v) := by
  unfold Statement
  revert v
  decide

theorem rdata : Statement .rdata := by unfold Statement; decide
theorem qnpx : Statement .qnpx := by unfold Statement; decide
theorem qnpy : Statement .qnpy := by unfold Statement; decide
theorem qgeom (x y : Nat) : Statement (.qgeom x y) := by
  have h : rowsOf (.query 0b010#3 0 0 false) = ["QGEOM"] := by decide
  exact h
theorem qpix (px py : Nat) (bp : Bool) : Statement (.qpix px py bp) := by
  have h : rowsOf (.query 0b011#3 0 0 false) = ["QPIX"] := by decide
  exact h
theorem qupd : Statement .qupd := by unfold Statement; decide

end Sys2Proof.Laws.OnItsRow
end

