-- ==== Sys2Proof/Laws/Step.lean ====
section
/-! SUPPORT. What one step can do. -/

namespace Sys2Proof.Machine

/-- A step answers next only by taking the oldest word and running it. -/
theorem step_eq_next_iff (s t : State) :
    step s = .next t ↔ ∃ w rest, s.inbox = w :: rest ∧ runWord w (s.take rest) = .next t := by
  unfold step
  cases h : s.inbox <;> simp

/-- A word answers next through the instruction it decodes to, or as a reserved query. -/
theorem runWord_eq_next_iff (w : PortWord) (s t : State) :
    runWord w s = .next t ↔
      (∃ i, decode w = .ok i ∧ exec i s = .next t) ∨
      (∃ q, decode w = .error (.reservedQuery q) ∧ t = s.drive .reserved) := by
  unfold runWord
  cases h : decode w with
  | ok i => simp
  | error e =>
    obtain ⟨q⟩ := e
    simp [answerReserved, eq_comm]

end Sys2Proof.Machine
end

