-- ==== Sys2Proof/Tests/Slice0.lean ====
section
/-! SUPPORT. Tests: ill-formed terms refused, one word a constructor decoded, one or two single steps an instruction, and
for each obligation with hypotheses a state and operands that meet them. Words and expected values come from
30_encoding.md and 95_test_vectors.md, never from a run of this model. -/

namespace Sys2Proof.Tests

open Sys2Proof.Machine

/-! ### Helpers -/

/-- The state an outcome goes on with. -/
def after (r : Result) : Option State :=
  match r with
  | .next s => some s
  | .fault _ => none
  | .refused _ => none

/-- What one bus word does to a state. -/
def bus (w : Nat) (s : State) : Option State := after (runWord (.bus (BitVec.ofNat 10 w)) s)

/-- What one instruction drives. -/
def driven (i : Instr) (s : State) : Option Output := (after (exec i s)).map State.out

/-- The reference engine with its counter in display memory. -/
def dd (ac : Addr) : State := { State.reset with ac := ac }

/-- The reference engine with its counter in glyph memory. -/
def cg (ac : Addr) : State := { State.reset with mode := .cgram, ac := ac }

/-- The reference engine with the viewport moved. -/
def shifted (sh : BitVec 6) : State := { State.reset with sh := sh }

/-- State X of 95_test_vectors.md 2.5. -/
def stateX : State :=
  { State.reset with
    ac := 0x45, sh := 7, id := false, s := true, d := true, c := true, b := true,
    ddram := Memory.fill 0x00#8 80 0x41#8, cgram := [(0, 0x1F#8)] }

/-- State Y of 95_test_vectors.md 2.8. -/
def stateY : State :=
  { State.reset with d := true, ddram := [(1, 0x01#8)], cgram := [(0, 0x10#8), (8, 0x1F#8)] }

/-- State Z of 95_test_vectors.md 2.8 with the cursor on. -/
def stateZ : State := { State.reset with d := true, c := true, ddram := [(1, 0x01#8)] }

/-- A well-formed engine of 20 x 4 (D24). -/
def fourRows : Config := ⟨RawConfig.fourRow 20 4 .romA, by decide⟩

/-- An engine of 40 x 2. -/
def wide : Config := ⟨RawConfig.standard 40 2 .romB, by decide⟩

/-! ### Ill-formed terms are refused -/

theorem test_wf_qgeom_x_too_wide : (Instr.qgeom 65536 0).wellFormed = false := by decide
theorem test_wf_qgeom_y_too_wide : (Instr.qgeom 0 65536).wellFormed = false := by decide
theorem test_wf_qpix_px_too_wide : (Instr.qpix 65536 0 false).wellFormed = false := by decide
theorem test_wf_qpix_py_too_wide : (Instr.qpix 0 65536 true).wellFormed = false := by decide
theorem test_wf_largest_operands :
    (Instr.qgeom 65535 65535).wellFormed = true ∧ (Instr.qpix 65535 65535 true).wellFormed = true := by decide

/-- R21: the bounds of the geometry, and of the 4-row table. -/
theorem test_wf_geometry :
    (RawConfig.standard 0 2 .romA).wellFormed = false ∧ (RawConfig.standard 41 2 .romA).wellFormed = false ∧
    (RawConfig.standard 16 0 .romA).wellFormed = false ∧ (RawConfig.standard 16 3 .romA).wellFormed = false ∧
    (RawConfig.fourRow 21 4 .romA).wellFormed = false ∧ (RawConfig.fourRow 20 5 .romA).wellFormed = false ∧
    (RawConfig.fourRow 20 4 .romA).wellFormed = true := by decide

/-- R51: each constraint on the tables. -/
theorem test_wf_tables :
    ({ RawConfig.standard 16 2 .romA with lineBase0 := 1 }).wellFormed = false ∧
    ({ RawConfig.standard 16 2 .romA with lineBase1 := 39 }).wellFormed = false ∧
    ({ RawConfig.standard 16 2 .romA with lineBase1 := 89 }).wellFormed = false ∧
    ({ RawConfig.standard 16 2 .romA with rows := [⟨0, 0⟩] }).wellFormed = false ∧
    ({ RawConfig.standard 16 2 .romA with rows := [⟨0, 0⟩, ⟨1, 40⟩] }).wellFormed = false ∧
    ({ RawConfig.standard 16 2 .romA with rows := [⟨0, 0⟩, ⟨0, 15⟩] }).wellFormed = false ∧
    ({ RawConfig.standard 16 2 .romA with rows := [⟨0, 0⟩, ⟨0, 16⟩] }).wellFormed = true := by decide

/-- R82: the operand ports must reach every pixel. -/
theorem test_wf_ports : ({ RawConfig.standard 40 2 .romA with gapX := 2000 }).wellFormed = false := by decide

/-! ### Decoding, one word a constructor, written from the encodings of R84 -/

theorem test_decode_setdd : decode (.bus 0b0011111111#10) = .ok (.setdd 0x7F) := by decide
theorem test_decode_setcg : decode (.bus 0b0001111111#10) = .ok (.setcg 0x3F) := by decide
theorem test_decode_rsvd5 : decode (.bus 0b0000111111#10) = .ok .rsvd5 := by decide
theorem test_decode_curl : decode (.bus 0b0000010011#10) = .ok .curl := by decide
theorem test_decode_curr : decode (.bus 0b0000010101#10) = .ok .curr := by decide
theorem test_decode_dspl : decode (.bus 0b0000011010#10) = .ok .dspl := by decide
theorem test_decode_dspr : decode (.bus 0b0000011111#10) = .ok .dspr := by decide
theorem test_decode_dispctl : decode (.bus 0b0000001011#10) = .ok (.dispctl false true true) := by decide
theorem test_decode_entry : decode (.bus 0b0000000110#10) = .ok (.entry true false) := by decide
theorem test_decode_home : decode (.bus 0b0000000010#10) = .ok .home := by decide
theorem test_decode_clear : decode (.bus 0b0000000001#10) = .ok .clear := by decide
theorem test_decode_nop : decode (.bus 0b0000000000#10) = .ok .nop := by decide
theorem test_decode_raddr : decode (.bus 0b0110101011#10) = .ok .raddr := by decide
theorem test_decode_wdata : decode (.bus 0b1011111111#10) = .ok (.wdata 0xFF) := by decide
theorem test_decode_rdata : decode (.bus 0b1110100101#10) = .ok .rdata := by decide
theorem test_decode_qnpx : decode (.query 0b000#3 1 2 true) = .ok .qnpx := by decide
theorem test_decode_qnpy : decode (.query 0b001#3 1 2 true) = .ok .qnpy := by decide
theorem test_decode_qgeom : decode (.query 0b010#3 15 1 true) = .ok (.qgeom 15 1) := by decide
theorem test_decode_qpix : decode (.query 0b011#3 94 16 true) = .ok (.qpix 94 16 true) := by decide
theorem test_decode_qupd : decode (.query 0b100#3 1 2 true) = .ok .qupd := by decide
theorem test_decode_reserved_query :
    decode (.query 0b101#3 0 0 false) = .error (.reservedQuery 0b101#3) ∧
    decode (.query 0b110#3 0 0 false) = .error (.reservedQuery 0b110#3) ∧
    decode (.query 0b111#3 0 0 false) = .error (.reservedQuery 0b111#3) := by decide

/-- The container of log 22: a bus row is two bytes, a query row one. -/
theorem test_decode_table_word :
    decodeTableWord 16 0x0C5 = some (.setdd 0x45) ∧ decodeTableWord 16 0x3FF = some .rdata ∧
    decodeTableWord 8 3 = some (.qpix 0 0 false) ∧ decodeTableWord 8 7 = none := by decide

/-! ### Single steps -/

/-- 2.2: the last bytes of line 1, and a field past it. -/
theorem test_setdd : bus 0x0E7 (cg 5) = some (dd 0x67) ∧ bus 0x0FF (cg 5) = some (dd 0x57) := by decide
theorem test_setdd_wraps_line_0 : bus 0x0BF (dd 5) = some (dd 0x17) := by decide
theorem test_setcg : bus 0x07F (dd 0x45) = some (cg 0x3F) := by decide
/-- 2.3: the ends of both lines and of glyph memory. -/
theorem test_curl : bus 0x011 (dd 0x40) = some (dd 0x67) ∧ bus 0x010 (dd 0x00) = some (dd 0x27) := by decide
theorem test_curl_cgram : bus 0x013 (cg 0x00) = some (cg 0x3F) := by decide
theorem test_curr : bus 0x016 (dd 0x67) = some (dd 0x40) ∧ bus 0x014 (cg 0x3F) = some (cg 0x00) := by decide
theorem test_curr_not_from_id :
    bus 0x014 { dd 0x05 with id := false } = some { dd 0x06 with id := false } := by decide
theorem test_dspl : bus 0x01B (shifted 39) = some (shifted 0) := by decide
theorem test_dspr : bus 0x01C (shifted 0) = some (shifted 39) := by decide
/-- 2.4. -/
theorem test_dispctl : bus 0x00B stateX = some { stateX with d := false } := by decide
theorem test_entry : bus 0x006 stateX = some { stateX with id := true, s := false } := by decide
/-- 2.5. -/
theorem test_home : bus 0x003 stateX = some { stateX with ac := 0, sh := 0 } := by decide
theorem test_clear : bus 0x001 stateX =
    some { stateX with ac := 0, id := true, ddram := Memory.fill 0x00#8 80 0x20#8 } := by decide
theorem test_clear_from_cgram : (bus 0x001 (cg 0x3F)).map State.mode = some .ddram := by decide
theorem test_nop : bus 0x000 stateX = some stateX := by decide
theorem test_rsvd5 : bus 0x021 stateX = some stateX ∧ bus 0x038 stateX = some stateX := by decide
/-- 2.6: the last byte of line 1; the line-1 write moves the one offset. -/
theorem test_wdata : bus 0x241 (dd 0x67) = some { dd 0x40 with ddram := [(79, 0x41#8)] } ∧
    bus 0x241 { dd 0x45 with s := true, sh := 2 } =
      some { dd 0x46 with s := true, sh := 3, ddram := [(45, 0x41#8)] } := by decide
theorem test_wdata_cgram : bus 0x2FF { cg 0x3F with s := true, sh := 5 } =
    some { cg 0x00 with s := true, sh := 5, cgram := [(63, 0xFF#8)] } := by decide
theorem test_rdata : bus 0x3A5 { dd 0x27 with ddram := [(39, 0x5A#8)], s := true } =
    some { dd 0x00 with ddram := [(39, 0x5A#8)], s := true, out := .dout 0x5A#8 } := by decide
theorem test_rdata_backward : bus 0x300 { dd 0x40 with ddram := [(40, 0x59#8)], id := false } =
    some { dd 0x67 with ddram := [(40, 0x59#8)], id := false, out := .dout 0x59#8 } := by decide
theorem test_raddr : bus 0x1FF (cg 0x3F) = some { cg 0x3F with out := .dout 0x3F#8 } := by decide
/-- 2.7. -/
theorem test_qnpx : driven .qnpx State.reset = some (.size 95) ∧
    driven .qnpx (State.init wide) = some (.size 239) := by decide
theorem test_qnpy : driven .qnpy State.reset = some (.size 17) ∧
    driven .qnpy (State.init fourRows) = some (.size 35) := by decide
theorem test_qgeom : driven (.qgeom 15 1) (shifted 30) = some (.addr 0x45) ∧
    driven (.qgeom 16 0) State.reset = some (.failed .outOfRange) := by decide
theorem test_qgeom_four_rows : driven (.qgeom 19 3) (State.init fourRows) = some (.addr 0x67) ∧
    driven (.qgeom 19 2) { State.init fourRows with sh := 1 } = some (.addr 0x00) := by decide
/-- 2.8: glyph bits, gaps, the edge of the raster, the shifted window. -/
theorem test_qpix : driven (.qpix 0 0 false) stateY = some (.pixel .on) ∧
    driven (.qpix 1 0 false) stateY = some (.pixel .off) ∧ driven (.qpix 5 0 false) stateY = some (.pixel .none) ∧
    driven (.qpix 94 16 false) stateY = some (.pixel .off) ∧
    driven (.qpix 95 0 false) stateY = some (.pixel .none) ∧
    driven (.qpix 12 0 false) { stateY with sh := 39 } = some (.pixel .on) ∧
    driven (.qpix 0 0 false) { stateY with d := false } = some (.pixel .off) := by decide
/-- 2.8: the underline, blinking and not. -/
theorem test_qpix_cursor : driven (.qpix 2 7 false) stateZ = some (.pixel .on) ∧
    driven (.qpix 2 6 false) stateZ = some (.pixel .off) ∧
    driven (.qpix 2 7 false) { stateZ with b := true } = some (.pixel .off) ∧
    driven (.qpix 2 7 true) { stateZ with b := true } = some (.pixel .on) ∧
    driven (.qpix 2 7 true) { stateZ with mode := .cgram } = some (.pixel .off) := by decide
theorem test_qupd : after (exec .qupd stateX) = some stateX := by decide
theorem test_reserved_query : after (runWord (.query 0b111#3 0 0 false) stateX) =
    some { stateX with out := .reserved } := by decide

/-- A word placed with `withFetchWord` is the next one run, and the only one taken. -/
theorem test_step_fetches : after (step (State.reset.withFetchWord 16 0x248)) =
    some { dd 0x01 with ddram := [(0, 0x48#8)] } := by decide
theorem test_step_fetches_query : (after (step (State.reset.withFetchWord 8 0))).map State.out =
    some (.size 95) := by decide
/-- From reset with nothing presented no step is taken (log 4). -/
theorem test_step_waits : after (step State.reset) = none := by decide

/-- The written forms of R90 and the symbolic bytes of R91. -/
theorem test_asm :
    assemble [.cmd (symDisplayOn ||| symCursor), .wstr [0x48#8, 0x49#8], .instr .raddr] =
      [.bus 0x00E#10, .bus 0x248#10, .bus 0x249#10, .bus 0x100#10] ∧
    decode (.command (symShiftDisplay ||| symRight)) = .ok .dspr ∧
    decode (.command symShiftCursor) = .ok .curl ∧ decode (.command symClear) = .ok .clear := by decide
theorem test_asm_text : asmText (.dispctl true true false) = "DISPCTL 1,1,0" ∧ asmText .nop = "NOP" := by
  decide

/-! ### Witnesses: each obligation with hypotheses, met by a concrete state and operands -/

/-- A text word waits at the last byte of line 1, `ID` and `S` set, the viewport at its edge. -/
def edge : State := { dd 0x67 with s := true, sh := 39, inbox := [.bus 0x241#10] }

/-- A state no run reaches: the counter names no byte of display memory. -/
def astray : State := dd 0x30

theorem witness_ConstructionGivesTheResetState :
    (RawConfig.standard 1 1 .romA).wellFormed = true ∧ (RawConfig.fourRow 20 4 .romB).wellFormed = true := by decide

theorem witness_IllFormedConfigurationGivesNoEngine :
    (RawConfig.standard 41 2 .romA).wellFormed = false ∧
    (∃ c : RawConfig, c.w = 0) ∧ (∃ c : RawConfig, 40 < c.w) ∧ (∃ c : RawConfig, c.h = 0) ∧
    (∃ c : RawConfig, c.maxRows < c.h) :=
  ⟨by decide, ⟨RawConfig.standard 0 2 .romA, rfl⟩, ⟨RawConfig.standard 41 2 .romA, by decide⟩,
    ⟨RawConfig.standard 16 0 .romA, rfl⟩, ⟨RawConfig.standard 16 3 .romA, by decide⟩⟩

theorem witness_SupportedGeometriesAreExactlyThese :
    (create (RawConfig.standard 40 2 .romA)).toOption ≠ none ∧ (create (RawConfig.fourRow 40 2 .romA)).toOption ≠ none ∧
    (create (RawConfig.fourRow 20 4 .romA)).toOption ≠ none ∧ (create (RawConfig.fourRow 21 3 .romA)).toOption = none := by
  decide

theorem witness_EveryStepKeepsTheInvariant :
    (create (RawConfig.standard 16 2 .romA)).toOption ≠ none ∧ edge.Inv ∧ after (step edge) ≠ none := by decide

theorem witness_PresentedWordsAlwaysComplete :
    edge.Inv ∧ edge.inbox = [.bus 0x241#10] ∧ (cg 63).Inv := by decide

theorem witness_StepRunsTheDecodedInstruction :
    edge.inbox = [.bus 0x241#10] ∧ decode (.bus 0x241#10) = .ok (.wdata 0x41) ∧
    decodeTableWord 16 0x241 = some (.wdata 0x41) ∧ State.reset.inbox = [] := by decide

theorem witness_ReservedQueryAnswersNotOk :
    5 ≤ (0b101#3).toNat ∧ 5 ≤ (0b111#3).toNat ∧
    { edge with inbox := [.query 0b101#3 0 0 false] }.inbox = [.query 0b101#3 0 0 false] := by decide

theorem witness_RunIsTheInstructionsInOrder :
    ∀ i ∈ [Instr.wdata 0x41, .qgeom 65535 65535, .qpix 0 65535 true], i.wellFormed = true := by decide

theorem witness_DecodeReadsBackEveryEncoding :
    (Instr.qgeom 65535 0).wellFormed = true ∧ (Instr.setdd 0x7F).wellFormed = true := by decide

/-- The ends of every range of R83: each byte lies under one clause. -/
theorem witness_CommandByteDecodesByHighestSetBit :
    decodeCommand 0xFF = .setdd 0x7F ∧ decodeCommand 0x80 = .setdd 0x00 ∧
    decodeCommand 0x7F = .setcg 0x3F ∧ decodeCommand 0x40 = .setcg 0x00 ∧
    decodeCommand 0x3F = .rsvd5 ∧ decodeCommand 0x20 = .rsvd5 ∧
    decodeCommand 0x1F = .dspr ∧ decodeCommand 0x1C = .dspr ∧ decodeCommand 0x1B = .dspl ∧ decodeCommand 0x18 = .dspl ∧
    decodeCommand 0x17 = .curr ∧ decodeCommand 0x14 = .curr ∧ decodeCommand 0x13 = .curl ∧ decodeCommand 0x10 = .curl ∧
    decodeCommand 0x0F = .dispctl true true true ∧ decodeCommand 0x08 = .dispctl false false false ∧
    decodeCommand 0x07 = .entry true true ∧ decodeCommand 0x04 = .entry false false ∧
    decodeCommand 0x03 = .home ∧ decodeCommand 0x02 = .home ∧ decodeCommand 0x01 = .clear ∧
    decodeCommand 0x00 = .nop := by decide

theorem witness_ClassesAndQueriesDecodeBySelect : 5 ≤ (0b101#3).toNat ∧ 5 ≤ (0b111#3).toNat := by decide

/-- The ends of the ranges of R58 (2.2). -/
theorem witness_NormalisationWrapsIntoItsLine :
    Config.reference.raw.lineBase1 = 0x40 ∧ validDd Config.reference.raw 0x67 = true ∧
    normDd Config.reference.raw 0x27 = 0x27 ∧ normDd Config.reference.raw 0x28 = 0x00 ∧
    normDd Config.reference.raw 0x3F = 0x17 ∧ normDd Config.reference.raw 0x40 = 0x40 ∧
    normDd Config.reference.raw 0x67 = 0x67 ∧ normDd Config.reference.raw 0x68 = 0x40 ∧
    normDd Config.reference.raw 0x7F = 0x57 := by decide

/-- The last byte of each line (R53). -/
theorem witness_StorageIndexIsABijection :
    validDd Config.reference.raw 0x27 = true ∧ idx Config.reference.raw 0x27 = some 39 ∧
    validDd Config.reference.raw 0x67 = true ∧ idx Config.reference.raw 0x67 = some 79 := by decide

theorem witness_AdvanceStaysInItsLineAndIsUndone :
    Dir.inc ≠ .dec ∧ lineOf Config.reference.raw 0x67 = some 1 ∧ lineOf Config.reference.raw 0x00 = some 0 ∧
    (0x3F#7).toNat ≤ 63 := by decide

/-- The counter at the last column of a line, and at the last byte of glyph memory. -/
theorem witness_ManyCursorShiftsGoRoundTheLine :
    (dd 0x67).mode = .ddram ∧ (dd 0x67).ac = lineAddr (dd 0x67).cfg.raw 1 39 ∧
    (cg 63).mode = .cgram ∧ (cg 63).ac.toNat ≤ 63 := by decide

theorem witness_ScreenCellsShowDistinctValidAddresses :
    15 < Config.reference.raw.w ∧ 1 < Config.reference.raw.h ∧ 19 < fourRows.raw.w ∧ 3 < fourRows.raw.h := by decide

theorem witness_SetddLoadsTheNormalisedAddress :
    State.reset.cfg.raw.lineBase1 ≤ (0x40#7).toNat ∧ (0x3F#7).toNat < State.reset.cfg.raw.lineBase1 := by decide

theorem witness_SetcgLoadsTheField : 0xC0 ≤ (0xC0#8).toNat ∧ 0xC0 ≤ (0xFF#8).toNat := by decide

theorem witness_CursorShiftMovesTheCounterOneColumn :
    (dd 0x00).mode = .ddram ∧ (dd 0x00).ac = lineAddr (dd 0x00).cfg.raw 0 0 ∧
    (dd 0x67).ac = lineAddr (dd 0x67).cfg.raw 1 39 ∧
    (cg 0).mode = .cgram ∧ (cg 0).ac.toNat ≤ 63 ∧ (cg 63).ac.toNat ≤ 63 := by decide

theorem witness_DisplayShiftMovesTheWindowOneColumn : (shifted 0).sh.toNat ≤ 39 ∧ (shifted 39).sh.toNat ≤ 39 := by decide

theorem witness_FortyDisplayShiftsRestoreTheWindow : (shifted 39).sh.toNat ≤ 39 ∧ 0 < 40 := by decide

theorem witness_DispctlLoadsThreeFlags : 0x08 ≤ (0x0F#8).toNat ∧ (0x0F#8).toNat < 0x10 := by decide

theorem witness_EntryLoadsTwoFlags : 0x04 ≤ (0x07#8).toNat ∧ (0x07#8).toNat < 0x08 := by decide

theorem witness_ReservedCommandBytesChangeNothing : 0x20 ≤ (0x3F#8).toNat ∧ (0x3F#8).toNat < 0x40 := by decide

theorem witness_LoadCommandsAreIdempotent :
    after (exec (.setdd 0x7F) stateX) ≠ none ∧ after (exec (.setcg 0x3F) stateX) ≠ none ∧
    after (exec (.dispctl true false true) stateX) ≠ none ∧ after (exec (.entry true true) stateX) ≠ none ∧
    after (exec .home stateX) ≠ none ∧ after (exec .clear stateX) ≠ none := by decide

theorem witness_MemoryPrimitivesReadBackWhatTheyWrite :
    stateX.MemoryOk ∧ idx stateX.cfg.raw 0x67 = some 79 ∧ (0x3F#7).toNat ≤ 63 := by decide

theorem witness_WdataWritesDisplayMemory :
    edge.Inv ∧ edge.mode = .ddram ∧ edge.ac = lineAddr edge.cfg.raw 1 39 := by decide

theorem witness_WdataWritesGlyphMemory : (cg 63).Inv ∧ (cg 63).mode = .cgram := by decide

theorem witness_RdataReadsThenAdvances :
    edge.mode = .ddram ∧ edge.ac = lineAddr edge.cfg.raw 1 39 ∧ (cg 63).mode = .cgram ∧ (cg 63).ac.toNat ≤ 63 := by
  decide

theorem witness_WritesShiftTheViewportReadsNever :
    after (exec .rdata edge) ≠ none ∧ after (exec (.wdata 0x41) edge) ≠ none ∧
    edge.s = true ∧ edge.mode = .ddram ∧ edge.sh.toNat ≤ 39 ∧
    after (exec .rdata (dd 0)) ≠ none ∧ after (exec (.wdata 0x41) (dd 0)) ≠ none ∧ (dd 0).s = false := by decide

theorem witness_AutoScrollKeepsTheCursorColumn :
    edge.Inv ∧ edge.mode = .ddram ∧ edge.s = true ∧ edge.ac = lineAddr edge.cfg.raw 1 39 ∧
    (after (exec (.wdata 0x41) edge)).map State.ac = some (lineAddr edge.cfg.raw 1 0) := by decide

theorem witness_DataRoundTripInBothBanks : stateX.MemoryOk ∧ validDd stateX.cfg.raw 0x67 = true := by decide

theorem witness_ManyWritesAdvanceInTheLine :
    edge.Inv ∧ edge.mode = .ddram ∧ edge.id = true ∧ edge.ac = lineAddr edge.cfg.raw 1 39 := by decide

theorem witness_ManyReadsMoveTheCounterAsWrites :
    edge.Inv ∧ after (execList (wstr [0x41#8, 0x42#8]) edge) ≠ none := by decide

theorem witness_TextLiesInTheLineItBeganIn :
    edge.Inv ∧ edge.mode = .ddram ∧ edge.id = true ∧ edge.ac = lineAddr edge.cfg.raw 1 39 ∧
    [0x41#8, 0x42#8].length ≤ 40 ∧ after (execList (wstr [0x41#8, 0x42#8]) edge) ≠ none := by decide

theorem witness_RasterSizeQueries :
    State.reset.cfg.raw.gapX = 1 ∧ State.reset.cfg.raw.gapY = 1 := by decide

theorem witness_GeometryQueryAnswersOrFails :
    15 < State.reset.cfg.raw.w ∧ 1 < State.reset.cfg.raw.h ∧ State.reset.cfg.raw.w ≤ 16 ∧
    State.reset.cfg.raw.h ≤ 2 := by decide

theorem witness_OnlyQgeomRaisesOutOfRange :
    driven (.qgeom 16 0) State.reset = some (.failed .outOfRange) ∧
    driven (.qgeom 0 2) State.reset = some (.failed .outOfRange) ∧ driven .qupd State.reset = some .undriven := by decide

theorem witness_OnlyShiftsMoveTheScreenWindow :
    after (exec .rdata edge) ≠ none ∧ (dd 0).s = false ∧ after (exec (.wdata 0x41) (dd 0)) ≠ none ∧
    after (exec (.wdata 0x41) (cg 63)) ≠ none ∧ after (exec .dspl edge) ≠ none ∧ after (exec .dspr edge) ≠ none ∧
    edge.sh.toNat ≤ 39 := by decide

/-- Outside the raster; in a gap; a cell with the display off, with a custom code, with a table code, and the cursor cell. -/
theorem witness_PixelQueryFollowsItsTests :
    State.reset.cfg.raw.npx ≤ 95 ∧ State.reset.cfg.raw.npy ≤ 17 ∧
    5 ≤ 5 % (5 + State.reset.cfg.raw.gapX) ∧ 8 ≤ 8 % (8 + State.reset.cfg.raw.gapY) ∧
    15 < State.reset.cfg.raw.w ∧ 1 < State.reset.cfg.raw.h ∧ State.reset.d = false ∧
    stateY.d = true ∧ stateY.ddCell 1 = 0x01 ∧ stateX.d = true ∧ stateX.ddCell 79 = 0x41 ∧
    stateZ.c = true ∧ stateZ.mode = .ddram ∧ stateZ.ac = lineAddr stateZ.cfg.raw 0 0 := by decide

theorem witness_BlinkPhaseMattersOnlyWhileBlinking :
    stateY.c = false ∧ stateZ.b = false ∧ State.reset.d = false ∧ (cg 0).mode = .cgram := by decide

theorem witness_PixelQueryIsPure :
    ({ edge with out := .reserved }).cfg = edge.cfg ∧ SameEngine edge { edge with out := .reserved, inbox := [] } :=
  ⟨rfl, ⟨fun _ _ => rfl, fun _ _ => rfl⟩, ⟨rfl, rfl⟩, ⟨rfl, rfl, rfl, rfl, rfl⟩, rfl⟩

theorem witness_CustomGlyphShowsItsPattern :
    stateY.Inv ∧ stateY.d = true ∧ stateY.c = false ∧ stateY.id = true ∧ stateY.s = false ∧
    (List.replicate 8 0x1F#8).length = 8 ∧ 15 < stateY.cfg.raw.w ∧ 1 < stateY.cfg.raw.h := by decide

theorem witness_WhatCanBeSeenAfterReset :
    94 < Config.reference.raw.npx ∧ 16 < Config.reference.raw.npy := by decide

theorem witness_ModeChangesOnlyByFourCommands :
    after (exec (.setdd 0x7F) (cg 63)) ≠ none ∧ after (exec (.setcg 0x3F) edge) ≠ none ∧
    after (exec .home (cg 63)) ≠ none ∧ after (exec .clear (cg 63)) ≠ none ∧ after (exec .rdata edge) ≠ none := by decide

/-- An instruction that does change each item (R20). -/
theorem witness_EachItemHasOnlyItsWriters :
    (after (exec .clear stateX)).map State.ddram ≠ some stateX.ddram ∧
    (after (exec (.wdata 0x41) (cg 63))).map State.cgram ≠ some (cg 63).cgram ∧
    (after (exec .curl (dd 0))).map State.ac ≠ some (dd 0).ac ∧
    (after (exec (.setcg 0) (dd 0))).map State.mode ≠ some .ddram ∧
    (after (exec .clear stateX)).map State.id ≠ some stateX.id ∧
    (after (exec (.entry false false) stateX)).map State.s ≠ some stateX.s ∧
    (after (exec (.dispctl false false false) stateX)).map State.d ≠ some stateX.d ∧
    (after (exec (.wdata 0x41) edge)).map State.sh ≠ some edge.sh := by decide

theorem witness_EveryOtherByteOfMemoryStays :
    stateX.MemoryOk ∧ after (exec .curr stateX) ≠ none ∧ after (exec .clear stateX) ≠ none ∧
    after (exec (.wdata 0x41) edge) ≠ none ∧ edge.MemoryOk ∧
    after (exec (.wdata 0x41) (cg 63)) ≠ none ∧ (cg 63).MemoryOk := by decide

theorem witness_QueriesAndAddressReadChangeNoState :
    Instr.qgeom 16 0 ≠ .raddr ∧ ∃ px py bp, Instr.qpix 94 16 true = .qpix px py bp :=
  ⟨by decide, 94, 16, true, rfl⟩

theorem witness_ConfigurationNeverChanges :
    after (exec .clear stateX) ≠ none ∧ after (step edge) ≠ none := by decide

theorem witness_OutputsAndWaitingWordsAreNotRead : after (exec .rdata edge) ≠ none := by decide

/-- The state of log 11, met by each of the four instructions. -/
theorem witness_FaultExactlyAtAnInvalidCounter :
    astray.mode = .ddram ∧ validDd astray.cfg.raw astray.ac = false ∧
    after (exec .curl astray) = none ∧ after (exec .curr astray) = none ∧
    after (exec .rdata astray) = none ∧ after (exec (.wdata 0x41) astray) = none := by decide

end Sys2Proof.Tests
end

section
/-! SUPPORT. What steps and instructions do to the host's side of the state: the configuration never changes (R5, R33),
the words still waiting are neither read nor changed by an instruction (log 3), and the decoder reads back the words of a
program, so that stepping through them runs the program in order (R12, R69). -/

namespace Sys2Proof

/-! ### The decoder on encoded words -/

theorem fitsPort_iff {n : Nat} : fitsPort n = true ↔ n < 2 ^ 16 := by
  simp [fitsPort]

/-- A query operand comes back whole exactly because it fits the wires of its port (R82). -/
theorem toNat_ofNat_of_fitsPort {n : Nat} (h : fitsPort n = true) : (BitVec.ofNat 16 n).toNat = n := by
  rw [BitVec.toNat_ofNat, Nat.mod_eq_of_lt (fitsPort_iff.1 h)]

/-- R84, R85: encode, then decode. The bus operands are small fields, checked bit pattern by bit pattern. -/
theorem decode_encode (i : Instr) (h : i.wellFormed = true) : decode (encode i) = .ok i := by
  cases i with
  | setdd a => clear h; revert a; decide
  | setcg a => clear h; revert a; decide
  | dispctl d c b => clear h; revert d c b; decide
  | entry i s => clear h; revert i s; decide
  | wdata v => clear h; revert v; decide
  | qgeom x y =>
    obtain ⟨hx, hy⟩ : fitsPort x = true ∧ fitsPort y = true := by simpa [Instr.wellFormed] using h
    simp [encode, decode, decodeQuery, -BitVec.toNat_ofNat, toNat_ofNat_of_fitsPort, hx, hy]
  | qpix px py bp =>
    obtain ⟨hx, hy⟩ : fitsPort px = true ∧ fitsPort py = true := by simpa [Instr.wellFormed] using h
    simp [encode, decode, decodeQuery, -BitVec.toNat_ofNat, toNat_ofNat_of_fitsPort, hx, hy]
  | rsvd5 | curl | curr | dspl | dspr | home | clear | nop | raddr | rdata | qnpx | qnpy | qupd => decide

theorem decodeTableWord_eq_some_iff {nbits w : Nat} {i : Instr} :
    decodeTableWord nbits w = some i ↔ decode (PortWord.ofTable nbits w) = .ok i := by
  unfold decodeTableWord
  cases decode (PortWord.ofTable nbits w) <;> simp

end Sys2Proof

namespace Sys2Proof.Machine

/-! ### The list of waiting words -/

@[simp] theorem State.take_take (s : State) (r r' : List PortWord) : (s.take r).take r' = s.take r' := rfl

@[simp] theorem State.take_inbox_self (s : State) : s.take s.inbox = s := rfl

/-! ### One step -/

theorem step_of_inbox_nil {s : State} (h : s.inbox = []) : step s = .refused .noTransaction := by
  rw [step, h]

/-- R12: the oldest word is taken and its instruction is run. -/
theorem step_of_decode {s : State} {w : PortWord} {rest : List PortWord} {i : Instr}
    (hw : s.inbox = w :: rest) (hd : decode w = .ok i) : step s = exec i (s.take rest) := by
  rw [step, hw]
  simp [runWord, hd]

/-! ### An instruction leaves the configuration and the waiting words -/

theorem exec_sameHost {i : Instr} {s t : State} (h : exec i s = .next t) : SameHost s t := by
  cases i with
  | setdd | setcg | rsvd5 | dspl | dspr | dispctl | entry | home | clear | nop | raddr | qnpx | qnpy | qupd =>
    cases h
    exact ⟨rfl, rfl⟩
  | curl | curr =>
    obtain ⟨a, -, rfl⟩ := cursorShift_eq_next_iff.1 h
    exact ⟨rfl, rfl⟩
  | rdata =>
    obtain ⟨v, a, -, -, rfl⟩ := execRdata_eq_next_iff.1 h
    exact ⟨rfl, rfl⟩
  | wdata v =>
    obtain ⟨q, a, hq, -, rfl⟩ := execWdata_eq_next h
    have hstore : SameHost s q := by
      obtain ⟨-, i, -, -, rfl⟩ | ⟨-, rfl⟩ := memWrite_eq_ok hq <;> exact ⟨rfl, rfl⟩
    obtain hsh | ⟨-, -, hsh⟩ := shiftOnWrite_cases (q.setAc a) <;> rw [hsh] <;> exact hstore
  | qgeom x y =>
    obtain ⟨-, hq⟩ | ⟨-, -, hq⟩ := execQgeom_cases x y s <;>
    · cases hq.symm.trans h
      exact ⟨rfl, rfl⟩
  | qpix px py bp =>
    obtain ⟨p, -, hq⟩ := exists_execQpix s px py bp
    cases hq.symm.trans h
    exact ⟨rfl, rfl⟩

/-! ### An instruction does not read the waiting words -/

/-- Change the next state a meaning answers; a fault or refusal stays as it is. -/
def mapNext (f : State → State) : Result → Result
  | .next t => .next (f t)
  | .fault e => .fault e
  | .refused e => .refused e

/-- The advance moves the counter and takes the waiting words along. -/
theorem State.advance_take (s : State) (r : List PortWord) (dir : Dir) :
    (s.take r).advance dir = (s.advance dir).map (·.take r) := by
  simp only [State.advance, State.take_cfg, State.take_ac, State.take_mode]
  cases adv s.cfg.raw s.ac s.mode dir <;> rfl

/-- A store changes its bank and takes the waiting words along. -/
theorem State.memWrite_take (s : State) (r : List PortWord) (bank : Bank) (a : Addr) (v : Byte) :
    (s.take r).memWrite bank a v = (s.memWrite bank a v).map (·.take r) := by
  cases bank with
  | cg => rfl
  | dd =>
    simp only [State.memWrite, State.take_cfg, State.take_ddram]
    cases idx s.cfg.raw a <;> rfl

theorem State.shiftOnWrite_take (s : State) (r : List PortWord) :
    (s.take r).shiftOnWrite = s.shiftOnWrite.take r := by
  rw [State.shiftOnWrite, State.shiftOnWrite, apply_ite (State.take · r)]
  rfl

theorem cursorShift_take (dir : Dir) (s : State) (r : List PortWord) :
    cursorShift dir (s.take r) = mapNext (·.take r) (cursorShift dir s) := by
  rw [cursorShift, State.advance_take, cursorShift]
  cases s.advance dir <;> rfl

theorem execRdata_take (s : State) (r : List PortWord) :
    execRdata (s.take r) = mapNext (·.take r) (execRdata s) := by
  have hop : (s.take r).operand = s.operand := rfl
  have hdir : (s.take r).entryDir = s.entryDir := rfl
  rw [execRdata, hop, hdir, State.advance_take, execRdata]
  cases s.operand with
  | error f => rfl
  | ok v => cases s.advance s.entryDir <;> rfl

theorem execWdata_take (v : Byte) (s : State) (r : List PortWord) :
    execWdata v (s.take r) = mapNext (·.take r) (execWdata v s) := by
  have hstore : (s.take r).storeOperand v = (s.storeOperand v).map (·.take r) := s.memWrite_take r _ _ v
  rw [execWdata, hstore, execWdata]
  cases s.storeOperand v with
  | error f => rfl
  | ok q =>
    have hdir : (q.take r).entryDir = q.entryDir := rfl
    simp only [Except.map, withOk_ok, hdir, State.advance_take]
    cases q.advance q.entryDir with
    | error f => rfl
    | ok t => exact congrArg (fun u => Host.Outcome.next (u.drive .undriven)) (t.shiftOnWrite_take r)

theorem execQgeom_take (x y : Nat) (s : State) (r : List PortWord) :
    execQgeom x y (s.take r) = mapNext (·.take r) (execQgeom x y s) := by
  rw [execQgeom, execQgeom, apply_ite (mapNext (·.take r))]
  rfl

theorem execQpix_take (px py : Nat) (bp : Bool) (s : State) (r : List PortWord) :
    execQpix px py bp (s.take r) = mapNext (·.take r) (execQpix px py bp s) := by
  have hpix : (s.take r).pixelAt px py bp = s.pixelAt px py bp := rfl
  rw [execQpix, hpix, execQpix]
  cases s.pixelAt px py bp <;> rfl

/-- With other words waiting an instruction answers the same, with those words waiting (R40, log 3). -/
theorem exec_take (i : Instr) (s : State) (r : List PortWord) :
    exec i (s.take r) = mapNext (·.take r) (exec i s) := by
  cases i with
  | setdd | setcg | rsvd5 | dspl | dspr | dispctl | entry | home | clear | nop | raddr | qnpx | qnpy | qupd => rfl
  | curl => exact cursorShift_take .dec s r
  | curr => exact cursorShift_take .inc s r
  | wdata v => exact execWdata_take v s r
  | rdata => exact execRdata_take s r
  | qgeom x y => exact execQgeom_take x y s r
  | qpix px py bp => exact execQpix_take px py bp s r

/-! ### A presented program -/

/-- Go on from the next state a step answers; a fault or refusal ends the run. -/
def andThen {σ φ ρ : Type} (r : Host.Outcome σ φ ρ) (k : σ → Host.Outcome σ φ ρ) : Host.Outcome σ φ ρ :=
  match r with
  | .next t => k t
  | .fault e => .fault e
  | .refused e => .refused e

theorem andThen_mapNext (f : State → State) (r : Result) (k : State → Result) :
    andThen (mapNext f r) k = andThen r fun t => k (f t) := by
  cases r <;> rfl

/-- Only what follows the state actually answered matters. -/
theorem andThen_congr {r : Result} {k k' : State → Result} (h : ∀ t, r = .next t → k t = k' t) :
    andThen r k = andThen r k' := by
  cases r with
  | next t => exact h t rfl
  | fault e => rfl
  | refused e => rfl

theorem hostRun_succ (M : Host.Core) (k : Nat) (s : M.State) :
    M.run (k + 1) s = andThen (M.step s) (M.run k) := by
  rw [Host.Core.run]
  cases M.step s <;> rfl

/-- `k` steps of this machine, with the host's types replaced by the model's own. -/
def runSteps (k : Nat) (s : State) : Result := Host.Core.run core k s

theorem runSteps_succ (k : Nat) (s : State) : runSteps (k + 1) s = andThen (step s) (runSteps k) :=
  hostRun_succ core k s

theorem execList_cons (i : Instr) (rest : List Instr) (s : State) :
    execList (i :: rest) s = andThen (exec i s) (execList rest) := by
  rw [execList]
  cases exec i s <;> rfl

/-- After an instruction the words it was run with are still the ones waiting. -/
theorem take_of_exec_take {i : Instr} {s t : State} {rest : List PortWord}
    (h : exec i (s.take rest) = .next t) : t.take rest = t := by
  obtain ⟨-, hinbox⟩ := exec_sameHost h
  rw [State.take_inbox] at hinbox
  rw [← hinbox, State.take_inbox_self]

/-- One presented instruction: the later words come through the step untouched. -/
theorem step_take_encode {i : Instr} (h : i.wellFormed = true) (s : State) (ws rest : List PortWord) :
    step (s.take (encode i :: ws)) = mapNext (·.take ws) (exec i (s.take rest)) :=
  calc step (s.take (encode i :: ws)) = exec i (s.take ws) := step_of_decode rfl (decode_encode i h)
    _ = mapNext (·.take ws) (exec i (s.take rest)) := exec_take i (s.take rest) ws

/-- By induction on the program: each step answers what `exec` answers, with the rest of the program waiting. -/
theorem runSteps_take_encode (program : List Instr) (s : State) (rest : List PortWord)
    (hwf : ∀ i ∈ program, i.wellFormed = true) :
    runSteps program.length (s.take (program.map encode ++ rest)) = execList program (s.take rest) := by
  induction program generalizing s with
  | nil => rfl
  | cons i program ih =>
    obtain ⟨hi, hprogram⟩ := List.forall_mem_cons.1 hwf
    calc runSteps (program.length + 1) (s.take (encode i :: (program.map encode ++ rest)))
      _ = andThen (exec i (s.take rest))
            fun t => runSteps program.length (t.take (program.map encode ++ rest)) := by
        rw [runSteps_succ, step_take_encode hi s _ rest, andThen_mapNext]
      _ = andThen (exec i (s.take rest)) (execList program) := by
        refine andThen_congr fun t ht => ?_
        rw [ih t hprogram, take_of_exec_take ht]
      _ = execList (i :: program) (s.take rest) := (execList_cons i program _).symm

/-! ### The statements -/

/-- Settles O7, from the step's equation for a decoded word. -/
theorem stepRunsTheDecodedInstruction : Obligations.StepRunsTheDecodedInstruction := by
  unfold Obligations.StepRunsTheDecodedInstruction
  refine ⟨fun s w rest i hw hd => step_of_decode hw hd, fun s nbits w i hd => ?_, fun s h => step_of_inbox_nil h⟩
  exact step_of_decode (s := s.withFetchWord nbits w) rfl (decodeTableWord_eq_some_iff.1 hd)

/-- Settles O58: an instruction leaves both, and a step runs its instruction after taking one word. -/
theorem configurationNeverChanges : Obligations.ConfigurationNeverChanges := by
  unfold Obligations.ConfigurationNeverChanges
  refine ⟨fun i s t h => exec_sameHost h, fun s t h => ?_⟩
  obtain ⟨w, rest, hw, hrun⟩ := (step_eq_next_iff s t).1 h
  have hhost : SameHost (s.take rest) t := by
    obtain ⟨i, -, hi⟩ | ⟨q, -, rfl⟩ := (runWord_eq_next_iff w _ t).1 hrun
    · exact exec_sameHost hi
    · exact ⟨rfl, rfl⟩
  obtain ⟨hcfg, hinbox⟩ := hhost
  exact ⟨hcfg, w, by rw [hw, hinbox, State.take_inbox]⟩

/-- Settles O9, by induction on the program. -/
theorem runIsTheInstructionsInOrder : Obligations.RunIsTheInstructionsInOrder := by
  unfold Obligations.RunIsTheInstructionsInOrder
  exact runSteps_take_encode

end Sys2Proof.Machine
end

section
/-! SUPPORT. The state and its invariant: construction (R21, R205), every way an instruction updates the state, said once
(R20), and from it the invariant of R36, the writers of each item and the memory frame; last, that an earlier output is not
read (R40). -/

namespace Sys2Proof

/-! ### The default geometries -/

variable {w h : Nat} {rom : Rom}

/-- With the default gaps a raster of at most 40 x 4 cells fits the query ports. -/
theorem RawConfig.standard_portsOk (hw : w ≤ 40) (hh : h ≤ 4) : (RawConfig.standard w h rom).portsOk = true := by
  rw [RawConfig.portsOk_iff]
  simp only [RawConfig.npx, RawConfig.npy, RawConfig.pitchX, RawConfig.pitchY, RawConfig.standard, glyphW, glyphH]
  omega

theorem RawConfig.standard_tablesOk (hh : 1 ≤ h ∧ h ≤ 2) : (RawConfig.standard w h rom).tablesOk = true := by
  rw [RawConfig.tablesOk_iff]
  obtain rfl | rfl : h = 1 ∨ h = 2 := by omega
  · simp [RawConfig.standard, rowsDisjoint]
  · simp [RawConfig.standard, rowsDisjoint]

/-- Two screen rows side by side on one line share no column. -/
theorem columnsDisjoint_zero_self (hw : 2 * w ≤ 40) : columnsDisjoint w 0 w = true := by
  simp only [columnsDisjoint, List.all_eq_true, List.mem_range, bne_iff_ne, lineCap]
  intro x hx y hy
  rw [Nat.mod_eq_of_lt (by omega), Nat.mod_eq_of_lt (by omega)]
  omega

theorem RawConfig.fourRow_tablesOk (hw : 1 ≤ w) (hh : 1 ≤ h ∧ h ≤ 4) (hfit : h ≤ 2 ∨ 2 * w ≤ 40) :
    (RawConfig.fourRow w h rom).tablesOk = true := by
  obtain hlow | ⟨hhigh, hfits⟩ : h ≤ 2 ∨ (h = 3 ∨ h = 4) ∧ 2 * w ≤ 40 := by omega
  · have htake : RawConfig.fourRow w h rom = { RawConfig.standard w h rom with maxRows := 4 } := by
      obtain rfl | rfl : h = 1 ∨ h = 2 := by omega
      · rfl
      · rfl
    rw [htake]
    exact RawConfig.standard_tablesOk (rom := rom) ⟨hh.1, hlow⟩
  · rw [RawConfig.tablesOk_iff]
    have hcol : w < 40 := by omega
    obtain rfl | rfl := hhigh
    · simp [RawConfig.fourRow, RawConfig.standard, rowsDisjoint, columnsDisjoint_zero_self hfits, hcol]
    · simp [RawConfig.fourRow, RawConfig.standard, rowsDisjoint, columnsDisjoint_zero_self hfits, hcol]

theorem RawConfig.standard_wellFormed_iff :
    (RawConfig.standard w h rom).wellFormed = true ↔ 1 ≤ w ∧ w ≤ 40 ∧ 1 ≤ h ∧ h ≤ 2 := by
  rw [RawConfig.wellFormed_iff, RawConfig.dimensionsOk_iff]
  constructor
  · rintro ⟨⟨hw, hw', hh, hh', -⟩, -⟩
    exact ⟨hw, hw', hh, hh'⟩
  · rintro ⟨hw, hw', hh, hh'⟩
    exact ⟨⟨hw, hw', hh, hh', .inl rfl, .inl hh'⟩, standard_tablesOk ⟨hh, hh'⟩, standard_portsOk hw' (by omega)⟩

theorem RawConfig.fourRow_wellFormed_iff :
    (RawConfig.fourRow w h rom).wellFormed = true ↔
      1 ≤ w ∧ w ≤ 40 ∧ 1 ≤ h ∧ h ≤ 4 ∧ (h ≤ 2 ∨ 2 * w ≤ 40) := by
  rw [RawConfig.wellFormed_iff, RawConfig.dimensionsOk_iff]
  constructor
  · rintro ⟨⟨hw, hw', hh, hh', -, hfit⟩, -⟩
    exact ⟨hw, hw', hh, hh', hfit⟩
  · rintro ⟨hw, hw', hh, hh', hfit⟩
    have hports : (RawConfig.fourRow w h rom).portsOk = true := RawConfig.standard_portsOk (rom := rom) hw' hh'
    exact ⟨⟨hw, hw', hh, hh', .inr rfl, hfit⟩, fourRow_tablesOk hw ⟨hh, hh'⟩ hfit, hports⟩

/-- The instructions that change no item of R20: they drive their outputs and nothing else. -/
def Instr.onlyDrives : Instr → Bool
  | .rsvd5 | .nop | .raddr | .qnpx | .qnpy | .qgeom _ _ | .qpix _ _ _ | .qupd => true
  | _ => false

end Sys2Proof

namespace Sys2Proof.Machine

variable {s t : State}

/-! ### Construction -/

theorem create_eq_ok_iff {raw : RawConfig} :
    create raw = .ok s ↔ ∃ h : raw.wellFormed = true, s = State.init ⟨raw, h⟩ := by
  unfold create
  split <;> simp [*, eq_comm]

theorem exists_create_iff {raw : RawConfig} : (∃ s, create raw = .ok s) ↔ raw.wellFormed = true := by
  simp [create_eq_ok_iff]

/-! ### Every way an instruction updates the state -/

/-- `Effect i s t` holds of every next state `t` that `i` answers from `s` (`effect_of_exec`): one constructor for each way
the state is updated, with the direction of a counter or viewport move left open. -/
inductive Effect : Instr → State → State → Prop where
  | drives {i : Instr} {s : State} (hi : i.onlyDrives = true) (o : Output) : Effect i s (s.drive o)
  | setdd {s : State} (a : BitVec 7) :
      Effect (.setdd a) s ((s.point .ddram (normDd s.cfg.raw a)).drive .undriven)
  | setcg {s : State} (a : BitVec 6) : Effect (.setcg a) s ((s.point .cgram (zext7 a)).drive .undriven)
  | advances {i : Instr} {s : State} (hi : i = .curl ∨ i = .curr ∨ i = .rdata) (o : Output) {dir : Dir} {a : Addr}
      (ha : adv s.cfg.raw s.ac s.mode dir = .ok a) : Effect i s ((s.setAc a).drive o)
  | shifts {i : Instr} {s : State} (hi : i = .dspl ∨ i = .dspr) (dir : Dir) :
      Effect i s ((s.setSh (shmove s.sh dir)).drive .undriven)
  | dispctl {s : State} (d c b : Bool) : Effect (.dispctl d c b) s ((s.setDisplay d c b).drive .undriven)
  | entry {s : State} (m f : Bool) : Effect (.entry m f) s ((s.setEntry m f).drive .undriven)
  | home {s : State} : Effect .home s (((s.point .ddram 0).setSh 0).drive .undriven)
  | clear {s : State} :
      Effect .clear s ((((s.fillDdram s.cfg.raw.blank).point .ddram 0).forceIncrement).drive .undriven)
  | wdataDd {s : State} (v : Byte) {k : Nat} {a : Addr} (hm : s.mode = .ddram) (hk : idx s.cfg.raw s.ac = some k)
      (ha : adv s.cfg.raw s.ac s.mode s.entryDir = .ok a) :
      Effect (.wdata v) s ((((s.setDdram (Memory.write s.cfg.raw.ddramResetByte s.ddram k v)).setAc a).setSh
        (if s.s = true then shmove s.sh s.entryDir else s.sh)).drive .undriven)
  | wdataCg {s : State} (v : Byte) {a : Addr} (hm : s.mode = .cgram)
      (ha : adv s.cfg.raw s.ac s.mode s.entryDir = .ok a) :
      Effect (.wdata v) s
        (((s.setCgram (Memory.write 0x00#8 s.cgram (s.ac.toNat % 64) v)).setAc a).drive .undriven)

theorem bankOf_eq_dd_iff {m : Mode} : bankOf m = .dd ↔ m = .ddram := by
  cases m <;> simp [bankOf]

theorem bankOf_eq_cg_iff {m : Mode} : bankOf m = .cg ↔ m = .cgram := by
  cases m <;> simp [bankOf]

theorem shiftOnWrite_of_ddram (h : s.mode = .ddram) :
    s.shiftOnWrite = s.setSh (if s.s = true then shmove s.sh s.entryDir else s.sh) := by
  unfold State.shiftOnWrite
  cases hs : s.s
  · simp
    rfl
  · simp [h]

theorem shiftOnWrite_of_cgram (h : s.mode = .cgram) : s.shiftOnWrite = s := by
  simp [State.shiftOnWrite, h]

/-- A data write in either mode (R140, R141). -/
theorem effect_of_execWdata {v : Byte} (h : execWdata v s = .next t) : Effect (.wdata v) s t := by
  obtain ⟨q, a, hq, ha, rfl⟩ := execWdata_eq_next h
  obtain ⟨hbank, k, hk, -, rfl⟩ | ⟨hbank, rfl⟩ := memWrite_eq_ok hq
  · have hm : s.mode = .ddram := bankOf_eq_dd_iff.1 hbank
    rw [shiftOnWrite_of_ddram]
    · exact .wdataDd v hm hk ha
    · exact hm
  · have hm : s.mode = .cgram := bankOf_eq_cg_iff.1 hbank
    rw [shiftOnWrite_of_cgram]
    · exact .wdataCg v hm ha
    · exact hm

/-- Whatever next state an instruction answers, it is one of these updates. -/
theorem effect_of_exec {i : Instr} (h : exec i s = .next t) : Effect i s t := by
  cases i with
  | rsvd5 | nop | raddr | qnpx | qnpy | qupd =>
    cases h
    exact .drives rfl _
  | qgeom x y =>
    obtain ⟨-, hq⟩ | ⟨-, -, hq⟩ := execQgeom_cases x y s <;>
    · cases hq.symm.trans h
      exact .drives rfl _
  | qpix px py bp =>
    obtain ⟨p, -, hq⟩ := exists_execQpix s px py bp
    cases hq.symm.trans h
    exact .drives rfl _
  | setdd a => cases h; exact .setdd a
  | setcg a => cases h; exact .setcg a
  | dispctl d c b => cases h; exact .dispctl d c b
  | entry m f => cases h; exact .entry m f
  | home => cases h; exact .home
  | clear => cases h; exact .clear
  | dspl => cases h; exact .shifts (.inl rfl) .inc
  | dspr => cases h; exact .shifts (.inr rfl) .dec
  | curl =>
    obtain ⟨a, ha, rfl⟩ := cursorShift_eq_next_iff.1 h
    exact .advances (.inl rfl) _ ha
  | curr =>
    obtain ⟨a, ha, rfl⟩ := cursorShift_eq_next_iff.1 h
    exact .advances (.inr (.inl rfl)) _ ha
  | rdata =>
    obtain ⟨v, a, -, ha, rfl⟩ := execRdata_eq_next_iff.1 h
    exact .advances (.inr (.inr rfl)) _ ha
  | wdata v => exact effect_of_execWdata h

/-! ### The invariant: the addresses the commands load, and one rule an update -/

/-- `NORM_DD` answers valid addresses only (R58). -/
theorem validDd_normDd (k : Config) (a : BitVec 7) : validDd k.raw (normDd k.raw a) = true := by
  rw [normDd_eq_lineAddr]
  split
  · exact validDd_iff.2 ⟨1, inLine_lineAddr k 1 (Nat.mod_lt _ (by omega))⟩
  · exact validDd_iff.2 ⟨0, inLine_lineAddr k 0 (Nat.mod_lt _ (by omega))⟩

/-- Address 0 is the first column of line 0 (R51). -/
theorem validDd_zero (k : Config) : validDd k.raw 0 = true := by
  refine validDd_iff.2 ⟨0, inLine_iff.2 ?_⟩
  simp [k.tables.1]

theorem State.inv_init (k : Config) : (State.init k).Inv :=
  ⟨⟨fun _ => validDd_zero k, nofun, by simp⟩, rfl, rfl⟩

theorem State.Inv.drive (h : s.Inv) (o : Output) : (s.drive o).Inv := h

theorem State.Inv.take (h : s.Inv) (r : List PortWord) : (s.take r).Inv := h

theorem State.Inv.setDisplay (h : s.Inv) (d c b : Bool) : (s.setDisplay d c b).Inv := h

theorem State.Inv.setEntry (h : s.Inv) (m f : Bool) : (s.setEntry m f).Inv := h

theorem State.Inv.forceIncrement (h : s.Inv) : s.forceIncrement.Inv := h

theorem State.Inv.point_ddram (h : s.Inv) {a : Addr} (ha : validDd s.cfg.raw a = true) : (s.point .ddram a).Inv :=
  ⟨⟨fun _ => ha, nofun, h.1.2.2⟩, h.2⟩

theorem State.Inv.point_cgram (h : s.Inv) {a : Addr} (ha : a.toNat ≤ 63) : (s.point .cgram a).Inv :=
  ⟨⟨nofun, fun _ => ha, h.1.2.2⟩, h.2⟩

/-- An advance loads an address of the mode the counter is in (R60). -/
theorem State.Inv.setAc (h : s.Inv) {dir : Dir} {a : Addr} (ha : adv s.cfg.raw s.ac s.mode dir = .ok a) :
    (s.setAc a).Inv :=
  ⟨⟨(adv_keeps ha).1, (adv_keeps ha).2, h.1.2.2⟩, h.2⟩

theorem State.Inv.setSh (h : s.Inv) {v : BitVec 6} (hv : v.toNat ≤ 39) : (s.setSh v).Inv :=
  ⟨⟨h.1.1, h.1.2.1, hv⟩, h.2⟩

theorem State.Inv.setDdram (h : s.Inv) {m : Memory} (hm : Memory.wf s.cfg.raw.ddramResetByte 80 m = true) :
    (s.setDdram m).Inv :=
  ⟨h.1, hm, h.2.2⟩

theorem State.Inv.setCgram (h : s.Inv) {m : Memory} (hm : Memory.wf 0x00#8 64 m = true) : (s.setCgram m).Inv :=
  ⟨h.1, h.2.1, hm⟩

/-- R61: the viewport shift stays in 0..39. -/
theorem toNat_shmove_le (sh : BitVec 6) (dir : Dir) : (shmove sh dir).toNat ≤ 39 :=
  Nat.le_of_lt_succ (toNat_shmove_lt sh dir)

/-- R36 over the updates an instruction can make. -/
theorem Effect.keeps_inv {i : Instr} (he : Effect i s t) (h : s.Inv) : t.Inv := by
  cases he with
  | drives _ o => exact h.drive o
  | setdd a => exact (h.point_ddram (validDd_normDd s.cfg a)).drive _
  | setcg a =>
    have ha : (zext7 a).toNat ≤ 63 := by
      rw [toNat_zext7]
      omega
    exact (h.point_cgram ha).drive _
  | advances _ o ha => exact (h.setAc ha).drive o
  | shifts _ dir => exact (h.setSh (toNat_shmove_le s.sh dir)).drive _
  | dispctl d c b => exact (h.setDisplay d c b).drive _
  | entry m f => exact (h.setEntry m f).drive _
  | home => exact ((h.point_ddram (validDd_zero s.cfg)).setSh (by simp)).drive _
  | clear =>
    have hfill : (s.fillDdram s.cfg.raw.blank).Inv := h.setDdram (Memory.wf_fill _)
    exact (hfill.point_ddram (validDd_zero s.cfg)).forceIncrement.drive _
  | wdataDd v hm hk ha =>
    have hstore := h.setDdram (Memory.wf_write (v := v) h.2.1 (idx_lt s.cfg hk))
    have hsh : (if s.s = true then shmove s.sh s.entryDir else s.sh).toNat ≤ 39 := by
      split
      · exact toNat_shmove_le _ _
      · exact h.1.2.2
    exact ((hstore.setAc ha).setSh hsh).drive _
  | wdataCg v hm ha =>
    have hstore := h.setCgram (Memory.wf_write (v := v) h.2.2 (Nat.mod_lt s.ac.toNat (by omega)))
    exact (hstore.setAc ha).drive _

/-- R36: a step runs an instruction, or answers a reserved query, with one waiting word taken. -/
theorem step_keeps_inv (h : s.Inv) (hstep : step s = .next t) : t.Inv := by
  obtain ⟨w, rest, -, hrun⟩ := (step_eq_next_iff s t).1 hstep
  obtain ⟨i, -, hi⟩ | ⟨q, -, rfl⟩ := (runWord_eq_next_iff w _ t).1 hrun
  · exact (effect_of_exec hi).keeps_inv (h.take rest)
  · exact (h.take rest).drive .reserved

/-! ### The memory frame -/

theorem operandIndex_of_ddram (h : s.mode = .ddram) : s.operandIndex = idx s.cfg.raw s.ac := by
  rw [State.operandIndex, h]

theorem operandIndex_of_cgram (h : s.mode = .cgram) : s.operandIndex = some (s.ac.toNat % 64) := by
  rw [State.operandIndex, h]

/-- A store to display memory, byte by byte (R56). -/
theorem State.setDdram_write_ddCell (h : s.MemoryOk) (k j : Nat) (v : Byte) :
    (s.setDdram (Memory.write s.cfg.raw.ddramResetByte s.ddram k v)).ddCell j = if j = k then v else s.ddCell j :=
  Memory.read_write h.1

/-- A store to glyph memory, byte by byte (R56). -/
theorem State.setCgram_write_cgCell (h : s.MemoryOk) (k j : Nat) (v : Byte) :
    (s.setCgram (Memory.write 0x00#8 s.cgram k v)).cgCell j = if j = k then v else s.cgCell j :=
  Memory.read_write h.2

/-- Only WDATA and CLEAR store (R20). -/
theorem Effect.sameBytes {i : Instr} (he : Effect i s t) (hw : ∀ v, i ≠ .wdata v) (hc : i ≠ .clear) :
    SameBytes s t := by
  cases he with
  | drives | setdd | setcg | advances | shifts | dispctl | entry | home => exact ⟨fun _ _ => rfl, fun _ _ => rfl⟩
  | clear => exact absurd rfl hc
  | wdataDd v | wdataCg v => exact absurd rfl (hw v)

theorem Effect.clear_cgCell (he : Effect .clear s t) (j : Nat) : t.cgCell j = s.cgCell j := by
  cases he <;> rfl

/-- The bytes after a data write, in either mode (R140). -/
theorem Effect.wdata_cells {v : Byte} (he : Effect (.wdata v) s t) (h : s.MemoryOk) :
    ∃ k, s.operandIndex = some k ∧
      (s.mode = .ddram → (∀ j, t.ddCell j = if j = k then v else s.ddCell j) ∧ ∀ j, t.cgCell j = s.cgCell j) ∧
      (s.mode = .cgram → (∀ j, t.cgCell j = if j = k then v else s.cgCell j) ∧ ∀ j, t.ddCell j = s.ddCell j) := by
  cases he with
  | drives hi => cases hi
  | advances hi => simp at hi
  | shifts hi => simp at hi
  | wdataDd v hm hk =>
    exact ⟨_, (operandIndex_of_ddram hm).trans hk,
      fun _ => ⟨fun j => State.setDdram_write_ddCell h _ j v, fun _ => rfl⟩, by simp [hm]⟩
  | wdataCg v hm =>
    exact ⟨_, operandIndex_of_cgram hm, by simp [hm],
      fun _ => ⟨fun j => State.setCgram_write_cgCell h _ j v, fun _ => rfl⟩⟩

/-! ### An earlier output is not read -/

theorem withOk_map {α β : Type} (f : α → β) (x : Except Fault α) (k : β → Result) :
    withOk (x.map f) k = withOk x fun v => k (f v) := by
  cases x <;> rfl

/-- The advance moves the counter and takes the recorded output along. -/
theorem State.advance_drive (s : State) (o : Output) (dir : Dir) :
    (s.drive o).advance dir = (s.advance dir).map (·.drive o) := by
  simp only [State.advance, State.drive_cfg, State.drive_ac, State.drive_mode]
  cases adv s.cfg.raw s.ac s.mode dir <;> rfl

/-- A store changes its bank and takes the recorded output along. -/
theorem State.memWrite_drive (s : State) (o : Output) (bank : Bank) (a : Addr) (v : Byte) :
    (s.drive o).memWrite bank a v = (s.memWrite bank a v).map (·.drive o) := by
  cases bank with
  | cg => rfl
  | dd =>
    simp only [State.memWrite, State.drive_cfg, State.drive_ddram]
    cases idx s.cfg.raw a <;> rfl

theorem State.shiftOnWrite_drive (s : State) (o : Output) :
    (s.drive o).shiftOnWrite = s.shiftOnWrite.drive o := by
  rw [State.shiftOnWrite, State.shiftOnWrite, apply_ite (State.drive · o)]
  rfl

theorem cursorShift_drive (dir : Dir) (s : State) (o : Output) :
    cursorShift dir (s.drive o) = cursorShift dir s := by
  simp only [cursorShift, State.advance_drive, withOk_map, State.drive_drive]

theorem execRdata_drive (s : State) (o : Output) : execRdata (s.drive o) = execRdata s := by
  have hop : (s.drive o).operand = s.operand := rfl
  have hdir : (s.drive o).entryDir = s.entryDir := rfl
  simp only [execRdata, hop, hdir, State.advance_drive, withOk_map, State.drive_drive]

theorem execWdata_drive (v : Byte) (s : State) (o : Output) : execWdata v (s.drive o) = execWdata v s := by
  have hstore : (s.drive o).storeOperand v = (s.storeOperand v).map (·.drive o) := s.memWrite_drive o _ _ v
  have hdir (q : State) : (q.drive o).entryDir = q.entryDir := rfl
  simp only [execWdata, hstore, hdir, State.advance_drive, State.shiftOnWrite_drive, withOk_map, State.drive_drive]

/-- Whatever an earlier step drove, an instruction answers the same (R40, log 5). -/
theorem exec_drive (i : Instr) (s : State) (o : Output) : exec i (s.drive o) = exec i s := by
  cases i with
  | setdd | setcg | rsvd5 | dspl | dspr | dispctl | entry | home | clear | nop | raddr | qnpx | qnpy | qupd => rfl
  | curl => exact cursorShift_drive .dec s o
  | curr => exact cursorShift_drive .inc s o
  | wdata v => exact execWdata_drive v s o
  | rdata => exact execRdata_drive s o
  | qgeom x y => rfl
  | qpix px py bp => rfl

/-! ### The statements -/

/-- Settles O5: each update an instruction can make has its rule for the invariant. -/
theorem everyStepKeepsTheInvariant : Obligations.EveryStepKeepsTheInvariant := by
  unfold Obligations.EveryStepKeepsTheInvariant
  refine ⟨fun raw s h => ?_, fun s t => step_keeps_inv⟩
  obtain ⟨hraw, rfl⟩ := create_eq_ok_iff.1 h
  exact State.inv_init ⟨raw, hraw⟩

/-- Settles O3: an engine exists exactly for a well-formed configuration. -/
theorem supportedGeometriesAreExactlyThese : Obligations.SupportedGeometriesAreExactlyThese := by
  unfold Obligations.SupportedGeometriesAreExactlyThese
  exact ⟨fun w h rom => exists_create_iff.trans RawConfig.standard_wellFormed_iff,
    fun w h rom => exists_create_iff.trans RawConfig.fourRow_wellFormed_iff⟩

/-- Settles O55: an update that does not name an item leaves it, and the rest are the listed writers. -/
theorem eachItemHasOnlyItsWriters : Obligations.EachItemHasOnlyItsWriters := by
  unfold Obligations.EachItemHasOnlyItsWriters
  intro i s t h
  cases effect_of_exec h with
  | drives => simp
  | setdd => simp
  | setcg => simp
  | advances hi => obtain rfl | rfl | rfl := hi <;> simp
  | shifts hi => obtain rfl | rfl := hi <;> simp
  | dispctl => simp
  | entry => simp
  | home => simp
  | clear => simp [State.fillDdram_eq]
  | wdataDd v hm => simp +contextual [hm]
  | wdataCg v hm => simp [hm]

/-- Settles O56, from the memory frame of the three kinds of instruction. -/
theorem everyOtherByteOfMemoryStays : Obligations.EveryOtherByteOfMemoryStays := by
  unfold Obligations.EveryOtherByteOfMemoryStays
  intro i s t hmem h
  have he := effect_of_exec h
  refine ⟨he.sameBytes, ?_, ?_⟩
  · rintro rfl
    exact he.clear_cgCell
  · rintro v rfl
    obtain ⟨k, hk, hdd, hcg⟩ := he.wdata_cells hmem
    refine ⟨k, hk, fun hm => ?_, fun hm => ?_⟩
    · obtain ⟨hstore, hother⟩ := hdd hm
      exact ⟨by simp [hstore], fun j hj => by simp [hstore, hj], hother⟩
    · obtain ⟨hstore, hother⟩ := hcg hm
      exact ⟨by simp [hstore], fun j hj => by simp [hstore, hj], hother⟩

/-- Settles O59: neither the recorded output nor the waiting words are read. -/
theorem outputsAndWaitingWordsAreNotRead : Obligations.OutputsAndWaitingWordsAreNotRead := by
  unfold Obligations.OutputsAndWaitingWordsAreNotRead
  refine fun i s o r => ⟨exec_drive i s o, fun t h => ?_⟩
  calc exec i (s.take r) = mapNext (·.take r) (exec i s) := exec_take i s r
    _ = .next (t.take r) := by rw [h, mapNext]

/-- Settles O4: the counter is 0, the first address of line 0, and both banks are empty lists. -/
theorem resetMeetsTheInvariant : Obligations.ResetMeetsTheInvariant := by
  unfold Obligations.ResetMeetsTheInvariant
  exact ⟨State.inv_init, State.inv_init Config.reference⟩

end Sys2Proof.Machine
end

section
/-! SUPPORT. The address arithmetic of 20_memory.md: the storage index (R53), the normalised field (R58), the advance and
its inverse (R59, R60), the ring a repeated shift walks (R60, R61), and the cells a screen shows (R63). -/

namespace Sys2Proof.Machine

/-! ### Lines, columns and storage indices -/

theorem validDd_lineAddr (k : Config) (l : Line) {col : Nat} (h : col < 40) :
    validDd k.raw (lineAddr k.raw l col) = true :=
  validDd_iff.2 ⟨l, inLine_lineAddr k l h⟩

theorem exists_lineAddr_of_lineOf (k : Config) {a : Addr} {l : Line} (h : lineOf k.raw a = some l) :
    ∃ col, col < 40 ∧ a = lineAddr k.raw l col := by
  have hl := (lineOf_eq_some_iff k).1 h
  obtain ⟨l', col, hc, rfl⟩ := exists_lineAddr k (validDd_iff.2 ⟨l, hl⟩)
  obtain rfl : l' = l := Option.some.inj ((lineOf_lineAddr k l' hc).symm.trans h)
  exact ⟨col, hc, rfl⟩

/-- Different columns of a line have different addresses. -/
theorem lineAddr_inj (k : Config) (l : Line) {col col' : Nat} (h : col < 40) (h' : col' < 40) :
    lineAddr k.raw l col = lineAddr k.raw l col' ↔ col = col' := by
  refine ⟨fun heq => ?_, fun heq => by rw [heq]⟩
  calc col = colOf k.raw l (lineAddr k.raw l col) := (colOf_lineAddr k l h).symm
    _ = colOf k.raw l (lineAddr k.raw l col') := by rw [heq]
    _ = col' := colOf_lineAddr k l h'

/-- Only valid addresses have a storage index. -/
theorem validDd_of_idx {c : RawConfig} {a : Addr} {i : Nat} (h : idx c a = some i) : validDd c a = true := by
  refine Bool.of_not_eq_false fun hv => ?_
  rw [idx_eq_none_iff.2 hv] at h
  cases h

theorem exists_idx (k : Config) {a : Addr} (h : validDd k.raw a = true) : ∃ i, i < 80 ∧ idx k.raw a = some i := by
  obtain ⟨l, col, hc, rfl⟩ := exists_lineAddr k h
  exact ⟨_, idx_lt k (idx_lineAddr k l hc), idx_lineAddr k l hc⟩

/-- The index determines the line and the column. -/
theorem eq_lineAddr_of_idx (k : Config) {a : Addr} {l : Line} {col : Nat} (hc : col < 40)
    (h : idx k.raw a = some (40 * l.val + col)) : a = lineAddr k.raw l col := by
  obtain ⟨l', col', hc', rfl⟩ := exists_lineAddr k (validDd_of_idx h)
  rw [idx_lineAddr k l' hc', Option.some.injEq] at h
  obtain rfl : l' = l := Fin.ext (by omega)
  obtain rfl : col' = col := by omega
  rfl

/-! ### The normalised field -/

theorem toNat_normDd_of_le (k : Config) {a : BitVec 7} (h : k.raw.lineBase1 ≤ a.toNat) :
    (normDd k.raw a).toNat = k.raw.lineBase1 + (a.toNat - k.raw.lineBase1) % 40 := by
  rw [normDd_eq_lineAddr, if_pos h, toNat_lineAddr k 1 (Nat.mod_lt _ (by omega)), RawConfig.lineBase_one]

theorem toNat_normDd_of_lt (k : Config) {a : BitVec 7} (h : a.toNat < k.raw.lineBase1) :
    (normDd k.raw a).toNat = a.toNat % 40 := by
  rw [normDd_eq_lineAddr, if_neg (by omega), toNat_lineAddr k 0 (Nat.mod_lt _ (by omega)), RawConfig.lineBase_zero,
    k.tables.1, Nat.zero_add]

/-- A valid field is less than 40 above the base of its line, so nothing wraps (R58). -/
theorem normDd_of_validDd (k : Config) {a : BitVec 7} (h : validDd k.raw a = true) : normDd k.raw a = a := by
  obtain ⟨h0, h1, -⟩ := k.tables
  obtain ⟨l, hl⟩ := validDd_iff.1 h
  rw [inLine_iff] at hl
  apply BitVec.eq_of_toNat_eq
  match l with
  | 0 =>
    rw [RawConfig.lineBase_zero] at hl
    rw [toNat_normDd_of_lt k (by omega), Nat.mod_eq_of_lt (by omega)]
  | 1 =>
    rw [RawConfig.lineBase_one] at hl
    rw [toNat_normDd_of_le k hl.1, Nat.mod_eq_of_lt (by omega), Nat.add_sub_of_le hl.1]

/-! ### One step and back -/

/-- A step the other way undoes a step (R60). -/
theorem wrapStep_wrapStep {n x : Nat} {dir back : Dir} (hx : x < n) (hne : dir ≠ back) :
    wrapStep n (wrapStep n x dir) back = x := by
  have hn : 0 < n := by omega
  have hround : (x + 1 + (n - 1)) % n = x := by
    rw [show x + 1 + (n - 1) = x + n by omega, Nat.add_mod_right, Nat.mod_eq_of_lt hx]
  match dir, back with
  | .inc, .inc | .dec, .dec => exact absurd rfl hne
  | .inc, .dec => rw [wrapStep_inc, wrapStep_dec (Nat.mod_lt _ hn), Nat.mod_add_mod, hround]
  | .dec, .inc => rw [wrapStep_dec hx, wrapStep_inc, Nat.mod_add_mod, Nat.add_right_comm, hround]

/-- An address of glyph memory fits the counter's 7 bits. -/
theorem toNat_ofNat_of_lt_64 {x : Nat} (h : x < 64) : (BitVec.ofNat 7 x).toNat = x := by
  rw [BitVec.toNat_ofNat, Nat.mod_eq_of_lt (by omega)]

/-! ### A shift repeated -/

/-- Where CURR runs `f 0, f 1, ..., f (m - 1)` round as a ring, `n` of them move `n` places. -/
theorem execList_curr_ring {m : Nat} {f : Nat → Addr} (n : Nat) {s : State} {x : Nat} (hx : x < m)
    (hac : s.ac = f x) (hadv : ∀ y, y < m → adv s.cfg.raw (f y) s.mode .inc = .ok (f ((y + 1) % m))) :
    ∃ t, execList (List.replicate n .curr) s = .next t ∧ t.ac = f ((x + n) % m) := by
  induction n generalizing s x with
  | zero => exact ⟨s, rfl, by rw [hac, Nat.add_zero, Nat.mod_eq_of_lt hx]⟩
  | succ n ih =>
    have hstep : exec .curr s = .next ((s.setAc (f ((x + 1) % m))).drive .undriven) :=
      cursorShift_eq_next_iff.2 ⟨_, by rw [hac, hadv x hx], rfl⟩
    obtain ⟨t, ht, htac⟩ := ih (s := (s.setAc (f ((x + 1) % m))).drive .undriven)
      (x := (x + 1) % m) (Nat.mod_lt _ (by omega)) rfl hadv
    refine ⟨t, ?_, ?_⟩
    · rw [List.replicate_succ, execList_cons, hstep]
      exact ht
    · rw [htac, Nat.mod_add_mod, Nat.add_right_comm, Nat.add_assoc]

/-- `n` places round a ring of `m` come back to the start exactly when `m` divides `n`. -/
theorem add_mod_eq_self_iff {m x : Nat} (n : Nat) (hx : x < m) : (x + n) % m = x ↔ n % m = 0 := by
  have h : (x + n) % m = x ↔ x + n ≡ x + 0 [MOD m] := by
    rw [Nat.ModEq, Nat.add_zero, Nat.mod_eq_of_lt hx]
  rw [h, Nat.ModEq.add_iff_left (Nat.ModEq.refl x), Nat.ModEq, Nat.zero_mod]

/-- A display shift as an amount added modulo 40: 1 for DSPL, 39 for DSPR (R61). -/
def windowStep : Dir → Nat
  | .inc => 1
  | .dec => 39

theorem shmove_eq {sh : BitVec 6} (h : sh.toNat < 40) (dir : Dir) :
    shmove sh dir = BitVec.ofNat 6 ((sh.toNat + windowStep dir) % 40) := by
  cases dir with
  | inc => rw [shmove, wrapStep_inc, windowStep]
  | dec => rw [shmove, wrapStep_dec h, windowStep]

/-- The viewport moved by `n` columns, as a state that drives nothing. -/
def State.scroll (s : State) (n : Nat) : State :=
  (s.setSh (BitVec.ofNat 6 ((s.sh.toNat + n) % 40))).drive .undriven

theorem State.scroll_sh (s : State) (n : Nat) : (s.scroll n).sh.toNat = (s.sh.toNat + n) % 40 := by
  have := Nat.mod_lt (s.sh.toNat + n) (y := 40) (by omega)
  simp only [State.scroll, State.drive_sh, State.setSh_sh, BitVec.toNat_ofNat]
  omega

theorem State.scroll_sh_lt (s : State) (n : Nat) : (s.scroll n).sh.toNat < 40 := by
  rw [State.scroll_sh]
  exact Nat.mod_lt _ (by omega)

theorem State.scroll_scroll (s : State) (n m : Nat) : (s.scroll n).scroll m = s.scroll (n + m) := by
  rw [State.scroll, State.scroll_sh, Nat.mod_add_mod, Nat.add_assoc]
  rfl

/-- A whole turn of the viewport shows the same window. -/
theorem State.scroll_of_mod_eq_zero {s : State} {n : Nat} (h : s.sh.toNat < 40) (hn : n % 40 = 0) :
    s.scroll n = s.drive .undriven := by
  rw [State.scroll, (add_mod_eq_self_iff n h).2 hn, BitVec.ofNat_toNat, BitVec.setWidth_eq]
  rfl

theorem displayShift_eq_scroll {s : State} (h : s.sh.toNat < 40) (dir : Dir) :
    displayShift dir s = .next (s.scroll (windowStep dir)) := by
  rw [displayShift, shmove_eq h, State.scroll]

/-- What was driven before a first instruction leaves no trace (R40). -/
theorem execList_cons_drive (i : Instr) (rest : List Instr) (s : State) (o : Output) :
    execList (i :: rest) (s.drive o) = execList (i :: rest) s := by
  rw [execList_cons, exec_drive, ← execList_cons]

/-- The same display shift `n` times. It starts from a state that drives nothing, so that it holds of `n = 0` too. -/
theorem execList_replicate_displayShift {i : Instr} {dir : Dir} (hi : ∀ s, exec i s = displayShift dir s) (n : Nat)
    {s : State} (h : s.sh.toNat < 40) :
    execList (List.replicate n i) (s.drive .undriven) = .next (s.scroll (n * windowStep dir)) := by
  induction n generalizing s with
  | zero =>
    rw [Nat.zero_mul, State.scroll_of_mod_eq_zero h (Nat.zero_mod 40)]
    rfl
  | succ n ih =>
    have hstep : exec i (s.drive .undriven) = .next (s.scroll (windowStep dir)) := by
      rw [exec_drive, hi, displayShift_eq_scroll h]
    have hrest := ih (s.scroll_sh_lt (windowStep dir))
    rw [State.scroll_scroll, Nat.add_comm, ← Nat.succ_mul] at hrest
    rw [List.replicate_succ, execList_cons, hstep]
    exact hrest

/-- One display shift and another. -/
theorem execList_two_displayShifts {i j : Instr} {dir dir' : Dir} (hi : ∀ s, exec i s = displayShift dir s)
    (hj : ∀ s, exec j s = displayShift dir' s) {s : State} (h : s.sh.toNat < 40) :
    execList [i, j] s = .next (s.scroll (windowStep dir + windowStep dir')) := by
  rw [execList_cons, hi, displayShift_eq_scroll h, andThen, execList_cons, hj,
    displayShift_eq_scroll (s.scroll_sh_lt _), State.scroll_scroll]
  rfl

/-! ### The cells of a screen -/

theorem columnsDisjoint_iff {w a b : Nat} :
    columnsDisjoint w a b = true ↔ ∀ x, x < w → ∀ y, y < w → (a + x) % 40 ≠ (b + y) % 40 := by
  simp [columnsDisjoint]

/-- Screen rows on one line share no column (R51). -/
def RowsApart (w : Nat) (r r' : ScreenRow) : Prop := r.line = r'.line → columnsDisjoint w r.col0 r'.col0 = true

theorem RowsApart.symm {w : Nat} {r r' : ScreenRow} (h : RowsApart w r r') : RowsApart w r' r := fun hl =>
  columnsDisjoint_iff.2 fun x hx y hy heq => columnsDisjoint_iff.1 (h hl.symm) y hy x hx heq.symm

theorem rowsDisjoint_iff_pairwise {w : Nat} {rows : List ScreenRow} :
    rowsDisjoint w rows = true ↔ rows.Pairwise (RowsApart w) := by
  induction rows with
  | nil => simp [rowsDisjoint]
  | cons r rest ih =>
    rw [rowsDisjoint, Bool.and_eq_true, ih, List.pairwise_cons]
    simp [RowsApart, imp_iff_not_or]

/-- R51 by row number: different rows of a screen are apart. -/
theorem rowsApart_of_ne (k : Config) {y y' : Nat} (hy : y < k.raw.h) (hy' : y' < k.raw.h) (hne : y ≠ y') :
    RowsApart k.raw.w (k.raw.row y) (k.raw.row y') := by
  obtain ⟨-, -, -, hlen, -, hrows⟩ := k.tables
  have hpair := List.pairwise_iff_getElem.1 (rowsDisjoint_iff_pairwise.1 hrows)
  rw [← hlen] at hy hy'
  rw [RawConfig.row, RawConfig.row, List.getD_eq_getElem _ _ hy, List.getD_eq_getElem _ _ hy']
  obtain hlt | hlt := Nat.lt_or_gt_of_ne hne
  · exact hpair y y' hy hy' hlt
  · exact (hpair y' y hy' hy hlt).symm

theorem lineOf_cellAddr (k : Config) (sh : BitVec 6) (x y : Nat) :
    lineOf k.raw (cellAddr k.raw sh x y) = some (k.raw.row y).line := by
  rw [cellAddr_eq, lineOf_lineAddr k _ (Nat.mod_lt _ (by omega))]

/-- Two screen cells that show one address are on one line, and shifted alike they are at one column of it. -/
theorem cellAddr_eq_iff (k : Config) (sh : BitVec 6) (x y x' y' : Nat) :
    cellAddr k.raw sh x' y' = cellAddr k.raw sh x y ↔
      (k.raw.row y').line = (k.raw.row y).line ∧
        ((k.raw.row y').col0 + x') % 40 = ((k.raw.row y).col0 + x) % 40 := by
  have hshift (a b : Nat) : (a + sh.toNat) % 40 = (b + sh.toNat) % 40 ↔ a % 40 = b % 40 :=
    Nat.ModEq.add_iff_right (Nat.ModEq.refl _)
  have hcol (z : Nat) : z % 40 < 40 := Nat.mod_lt _ (by omega)
  rw [← hshift]
  constructor
  · intro h
    have hl : (k.raw.row y').line = (k.raw.row y).line :=
      Option.some.inj (by rw [← lineOf_cellAddr k sh x', h, lineOf_cellAddr])
    rw [cellAddr_eq, cellAddr_eq, hl] at h
    exact ⟨hl, (lineAddr_inj k _ (hcol _) (hcol _)).1 h⟩
  · rintro ⟨hl, hc⟩
    rw [cellAddr_eq, cellAddr_eq, hl, hc]

theorem cellAddr_inj (k : Config) (sh : BitVec 6) {x y x' y' : Nat} (hx : x < k.raw.w) (hy : y < k.raw.h)
    (hx' : x' < k.raw.w) (hy' : y' < k.raw.h) (h : cellAddr k.raw sh x' y' = cellAddr k.raw sh x y) :
    x' = x ∧ y' = y := by
  obtain ⟨hl, hc⟩ := (cellAddr_eq_iff k sh x y x' y').1 h
  have hrow : y' = y := by
    by_contra hne
    exact columnsDisjoint_iff.1 (rowsApart_of_ne k hy' hy hne hl) x' hx' x hx hc
  obtain ⟨-, hw, -⟩ := k.dimensions
  subst hrow
  exact ⟨by omega, rfl⟩

/-! ### The statements -/

/-- Settles O15: above the second base and below it the value of the wrapped field, and valid fields stay. -/
theorem normalisationWrapsIntoItsLine : Obligations.NormalisationWrapsIntoItsLine := by
  unfold Obligations.NormalisationWrapsIntoItsLine
  refine fun k a => ⟨validDd_normDd k a, normDd_of_validDd k, toNat_normDd_of_le k, toNat_normDd_of_lt k,
    fun hbase => ⟨fun ha => ?_, fun ha => normDd_of_validDd k ?_⟩⟩
  · have hwidth := a.isLt
    obtain hlow | hhigh := ha
    · rw [toNat_normDd_of_lt k (by omega)]
      omega
    · rw [toNat_normDd_of_le k (by omega)]
      omega
  · obtain hlow | hhigh := ha
    · refine validDd_iff.2 ⟨0, inLine_iff.2 ?_⟩
      rw [RawConfig.lineBase_zero, k.tables.1]
      omega
    · refine validDd_iff.2 ⟨1, inLine_iff.2 ?_⟩
      rw [RawConfig.lineBase_one, hbase]
      omega

/-- Settles O16: index `i` belongs to column `i % 40` of line `i / 40`. -/
theorem storageIndexIsABijection : Obligations.StorageIndexIsABijection := by
  unfold Obligations.StorageIndexIsABijection
  refine fun k => ⟨fun l col => idx_lineAddr k l, fun a => exists_idx k, fun i hi => ?_⟩
  have hcol : i % 40 < 40 := Nat.mod_lt _ (by omega)
  obtain ⟨l, hl⟩ : ∃ l : Line, i = 40 * l.val + i % 40 := ⟨⟨i / 40, by omega⟩, (Nat.div_add_mod i 40).symm⟩
  have hidx : idx k.raw (lineAddr k.raw l (i % 40)) = some i := by rw [idx_lineAddr k l hcol, ← hl]
  refine ⟨_, validDd_lineAddr k l hcol, hidx, fun a' ha' => eq_lineAddr_of_idx k hcol ?_⟩
  rw [ha', ← hl]

/-- Settles O17: in either mode the advance is a step of a ring, of the columns of a line or of 0..63. -/
theorem advanceStaysInItsLineAndIsUndone : Obligations.AdvanceStaysInItsLineAndIsUndone := by
  unfold Obligations.AdvanceStaysInItsLineAndIsUndone
  constructor
  · intro k a l dir back hne hl
    obtain ⟨col, hc, rfl⟩ := exists_lineAddr_of_lineOf k hl
    have hw : wrapStep 40 col dir < 40 := wrapStep_lt (by omega) col dir
    refine ⟨_, adv_ddram_lineAddr k l hc dir, lineOf_lineAddr k l hw, ?_⟩
    rw [adv_ddram_lineAddr k l hw, wrapStep_wrapStep hc hne]
  · intro k a dir back hne ha
    have hw : wrapStep 64 a.toNat dir < 64 := wrapStep_lt (by omega) a.toNat dir
    refine ⟨_, adv_cgram k.raw a dir, ?_, ?_⟩
    · rw [toNat_ofNat_of_lt_64 hw]
      omega
    · rw [adv_cgram, toNat_ofNat_of_lt_64 hw, wrapStep_wrapStep (by omega) hne, BitVec.ofNat_toNat, BitVec.setWidth_eq]

/-- Settles O18: the columns of a line and the 64 addresses of glyph memory are the two rings CURR walks. -/
theorem manyCursorShiftsGoRoundTheLine : Obligations.ManyCursorShiftsGoRoundTheLine := by
  unfold Obligations.ManyCursorShiftsGoRoundTheLine
  refine fun s n => ⟨fun l col hm hc hac => ?_, fun hm ha => ?_⟩
  · obtain ⟨t, ht, htac⟩ := execList_curr_ring (m := 40) (f := lineAddr s.cfg.raw l) n hc hac fun y hy => by
      rw [hm, adv_ddram_lineAddr s.cfg l hy, wrapStep_inc]
    refine ⟨t, ht, htac, ?_⟩
    rw [htac, hac, lineAddr_inj s.cfg l (Nat.mod_lt _ (by omega)) hc, add_mod_eq_self_iff n hc]
  · have hlt : s.ac.toNat < 64 := by omega
    have hac : s.ac = BitVec.ofNat 7 s.ac.toNat := by rw [BitVec.ofNat_toNat, BitVec.setWidth_eq]
    obtain ⟨t, ht, htac⟩ := execList_curr_ring (m := 64) (f := BitVec.ofNat 7) n hlt hac fun y hy => by
      rw [hm, adv_cgram, toNat_ofNat_of_lt_64 hy, wrapStep_inc]
    have htoNat : t.ac.toNat = (s.ac.toNat + n) % 64 := by
      rw [htac, toNat_ofNat_of_lt_64 (Nat.mod_lt _ (by omega))]
    refine ⟨t, ht, htoNat, ?_⟩
    rw [← BitVec.toNat_inj, htoNat, add_mod_eq_self_iff n hlt]

/-- Settles O19: the cell is a column of its row's line, and R51 keeps the rows of one line apart. -/
theorem screenCellsShowDistinctValidAddresses : Obligations.ScreenCellsShowDistinctValidAddresses := by
  unfold Obligations.ScreenCellsShowDistinctValidAddresses
  intro k sh x y hx hy
  have hcol : ((k.raw.row y).col0 + x + sh.toNat) % 40 < 40 := Nat.mod_lt _ (by omega)
  exact ⟨toNat_lineAddr k _ hcol, validDd_lineAddr k _ hcol, lineOf_cellAddr k sh x y,
    fun x' y' hx' hy' h => cellAddr_inj k sh hx hy hx' hy' h⟩

/-- Settles O24: the shifts add up modulo 40, and 40 times 39, 1 + 39 and 39 + 1 are whole turns. -/
theorem fortyDisplayShiftsRestoreTheWindow : Obligations.FortyDisplayShiftsRestoreTheWindow := by
  unfold Obligations.FortyDisplayShiftsRestoreTheWindow
  intro s hle
  have hsh : s.sh.toNat < 40 := by omega
  have hmany {i : Instr} {dir : Dir} (hi : ∀ s, exec i s = displayShift dir s) (n : Nat) :
      execList (List.replicate (n + 1) i) s = .next (s.scroll ((n + 1) * windowStep dir)) := by
    rw [← execList_replicate_displayShift hi (n + 1) hsh, List.replicate_succ, execList_cons_drive]
  refine ⟨fun n hn => ?_, ?_, ?_, ?_⟩
  · obtain ⟨n, rfl⟩ := Nat.exists_eq_add_one.2 hn
    rw [hmany (dir := .inc) fun _ => rfl, windowStep, Nat.mul_one]
    rfl
  · rw [hmany (dir := .dec) fun _ => rfl, State.scroll_of_mod_eq_zero hsh (by decide)]
    rfl
  · rw [execList_two_displayShifts (dir := .inc) (dir' := .dec) (fun _ => rfl) (fun _ => rfl) hsh,
      State.scroll_of_mod_eq_zero hsh (by decide)]
    rfl
  · rw [execList_two_displayShifts (dir := .dec) (dir' := .inc) (fun _ => rfl) (fun _ => rfl) hsh,
      State.scroll_of_mod_eq_zero hsh (by decide)]
    rfl

end Sys2Proof.Machine
end

section
/-! SUPPORT. The memory primitives (R56), when an instruction completes and when it faults (R36, R56, log 11), and the commands
that load a pointer or a control field (R62, R66). -/

namespace Sys2Proof

/-- The instructions that access a bank at the counter's value or advance the counter from it (R110, R111, R140, R143). -/
def Instr.usesCounter : Instr → Bool
  | .curl | .curr | .wdata _ | .rdata => true
  | _ => false

theorem Instr.usesCounter_iff {i : Instr} :
    i.usesCounter = true ↔ i = .curl ∨ i = .curr ∨ i = .rdata ∨ ∃ v, i = .wdata v := by
  cases i <;> simp [Instr.usesCounter]

end Sys2Proof

namespace Sys2Proof.Machine

variable {s : State}

/-! ### The memory primitives at one storage index -/

theorem memRead_dd_of_idx {a : Addr} {i : Nat} (h : idx s.cfg.raw a = some i) :
    s.memRead .dd a = .ok (s.ddCell i) := by
  simp [State.memRead, h]

theorem memWrite_dd_of_idx {a : Addr} {i : Nat} (v : Byte) (h : idx s.cfg.raw a = some i) :
    s.memWrite .dd a v = .ok (s.setDdram (Memory.write s.cfg.raw.ddramResetByte s.ddram i v)) := by
  simp [State.memWrite, h, resetByte]

theorem State.MemoryOk.setDdram_write (h : s.MemoryOk) {i : Nat} (hi : i < 80) (v : Byte) :
    (s.setDdram (Memory.write s.cfg.raw.ddramResetByte s.ddram i v)).MemoryOk :=
  ⟨Memory.wf_write h.1 hi, h.2⟩

theorem State.MemoryOk.setCgram_write (h : s.MemoryOk) {i : Nat} (hi : i < 64) (v : Byte) :
    (s.setCgram (Memory.write 0x00#8 s.cgram i v)).MemoryOk :=
  ⟨h.1, Memory.wf_write h.2 hi⟩

/-! ### Instructions that need the counter -/

/-- The counter has a meaning in its mode: it is no invalid DDRAM address (R36, R56). -/
abbrev State.CounterOk (s : State) : Prop := s.mode = .ddram → validDd s.cfg.raw s.ac = true

theorem exists_adv (h : s.CounterOk) (dir : Dir) : ∃ a, adv s.cfg.raw s.ac s.mode dir = .ok a := by
  cases hm : s.mode with
  | cgram => exact ⟨_, adv_cgram s.cfg.raw s.ac dir⟩
  | ddram =>
    obtain ⟨l, col, hc, hac⟩ := exists_lineAddr s.cfg (h hm)
    rw [hac]
    exact ⟨_, adv_ddram_lineAddr s.cfg l hc dir⟩

theorem exists_operand (h : s.CounterOk) : ∃ v, s.operand = .ok v := by
  rw [State.operand]
  cases hm : s.mode with
  | cgram => exact ⟨_, memRead_cg s s.ac⟩
  | ddram =>
    obtain ⟨i, -, hi⟩ := exists_idx s.cfg (h hm)
    exact ⟨_, memRead_dd_of_idx hi⟩

theorem exists_storeOperand (h : s.CounterOk) (v : Byte) : ∃ q, s.storeOperand v = .ok q := by
  rw [State.storeOperand]
  cases hm : s.mode with
  | cgram => exact ⟨_, memWrite_cg s s.ac v⟩
  | ddram =>
    obtain ⟨i, -, hi⟩ := exists_idx s.cfg (h hm)
    exact ⟨_, memWrite_dd_of_idx v hi⟩

theorem completes_cursorShift (h : s.CounterOk) (dir : Dir) : Completes (cursorShift dir s) := by
  obtain ⟨a, ha⟩ := exists_adv h dir
  exact ⟨_, cursorShift_eq_next_iff.2 ⟨a, ha, rfl⟩⟩

theorem completes_execRdata (h : s.CounterOk) : Completes (execRdata s) := by
  obtain ⟨v, hv⟩ := exists_operand h
  obtain ⟨a, ha⟩ := exists_adv h s.entryDir
  exact ⟨_, execRdata_eq_next_iff.2 ⟨v, a, hv, ha, rfl⟩⟩

/-- The store leaves what the advance reads, so the advance completes after it as it would before it. -/
theorem completes_execWdata (h : s.CounterOk) (v : Byte) : Completes (execWdata v s) := by
  obtain ⟨q, hq⟩ := exists_storeOperand h v
  obtain ⟨a, ha⟩ := exists_adv h s.entryDir
  have hadv : q.advance q.entryDir = .ok (q.setAc a) := by
    obtain ⟨-, i, -, -, rfl⟩ | ⟨-, rfl⟩ := memWrite_eq_ok hq <;> exact (advance_eq_ok_iff _ _ _).2 ⟨a, ha, rfl⟩
  exact ⟨_, by rw [execWdata, hq, withOk_ok, hadv, withOk_ok]⟩

/-- The instructions that change no item of R20 answer with what they drive, in every state (R66). -/
theorem exists_exec_eq_drive {i : Instr} (hi : i.onlyDrives = true) (s : State) :
    ∃ o, exec i s = .next (s.drive o) := by
  cases i with
  | rsvd5 | nop | raddr | qnpx | qnpy | qupd => exact ⟨_, rfl⟩
  | qgeom x y => obtain ⟨-, hq⟩ | ⟨-, -, hq⟩ := execQgeom_cases x y s <;> exact ⟨_, hq⟩
  | qpix px py bp =>
    obtain ⟨p, -, hq⟩ := exists_execQpix s px py bp
    exact ⟨_, hq⟩
  | setdd | setcg | curl | curr | dspl | dspr | dispctl | entry | home | clear | wdata | rdata => cases hi

theorem completes_of_onlyDrives {i : Instr} (hi : i.onlyDrives = true) : Completes (exec i s) := by
  obtain ⟨o, ho⟩ := exists_exec_eq_drive hi s
  exact ⟨_, ho⟩

/-- Only at an invalid counter can an instruction fail to complete, and only one that uses the counter. -/
theorem completes_exec {i : Instr} (h : i.usesCounter = true → s.CounterOk) : Completes (exec i s) := by
  cases i with
  | setdd | setcg | dspl | dspr | dispctl | entry | home | clear => exact ⟨_, rfl⟩
  | rsvd5 | nop | raddr | qnpx | qnpy | qgeom | qpix | qupd =>
    exact completes_of_onlyDrives rfl
  | curl => exact completes_cursorShift (h rfl) .dec
  | curr => exact completes_cursorShift (h rfl) .inc
  | wdata v => exact completes_execWdata (h rfl) v
  | rdata => exact completes_execRdata (h rfl)

/-! ### Faults -/

section
variable (hm : s.mode = .ddram) (hv : validDd s.cfg.raw s.ac = false)
include hm hv

theorem cursorShift_eq_fault (dir : Dir) : cursorShift dir s = .fault (.ddAddressNotValid s.ac) := by
  refine withOk_eq_fault.2 (.inl ((advance_eq_error_iff _ _ _).2 ?_))
  rw [hm]
  exact (adv_ddram_eq_error_iff _ _ _ _).2 ⟨hv, rfl⟩

theorem execRdata_eq_fault : execRdata s = .fault (.ddAddressNotValid s.ac) := by
  refine withOk_eq_fault.2 (.inl ?_)
  rw [State.operand, bankOf_eq_dd_iff.2 hm, State.memRead, idx_eq_none_iff.2 hv]

theorem execWdata_eq_fault (v : Byte) : execWdata v s = .fault (.ddAddressNotValid s.ac) := by
  refine withOk_eq_fault.2 (.inl ?_)
  rw [State.storeOperand, bankOf_eq_dd_iff.2 hm, State.memWrite, idx_eq_none_iff.2 hv]

/-- At an invalid counter an instruction that uses it faults (log 11). -/
theorem exec_eq_fault {i : Instr} (hi : i.usesCounter = true) : exec i s = .fault (.ddAddressNotValid s.ac) := by
  obtain rfl | rfl | rfl | ⟨v, rfl⟩ := Instr.usesCounter_iff.1 hi
  · exact cursorShift_eq_fault hm hv .dec
  · exact cursorShift_eq_fault hm hv .inc
  · exact execRdata_eq_fault hm hv
  · exact execWdata_eq_fault hm hv v

end

/-- The two outcomes of an instruction. -/
theorem exec_cases (i : Instr) (s : State) :
    (i.usesCounter = true ∧ s.mode = .ddram ∧ validDd s.cfg.raw s.ac = false ∧
      exec i s = .fault (.ddAddressNotValid s.ac)) ∨
    ¬ (i.usesCounter = true ∧ s.mode = .ddram ∧ validDd s.cfg.raw s.ac = false) ∧ Completes (exec i s) := by
  by_cases h : i.usesCounter = true ∧ s.mode = .ddram ∧ validDd s.cfg.raw s.ac = false
  · obtain ⟨hi, hm, hv⟩ := h
    exact .inl ⟨hi, hm, hv, exec_eq_fault hm hv hi⟩
  · refine .inr ⟨h, completes_exec fun hi hm => ?_⟩
    exact Bool.of_not_eq_false fun hv => h ⟨hi, hm, hv⟩

/-! ### Loading a pointer or a control field -/

/-- The four commands that load the counter and the mode together (R62). -/
abbrev LoadsPointer (i : Instr) : Prop := (∃ a, i = .setdd a) ∨ (∃ a, i = .setcg a) ∨ i = .home ∨ i = .clear

/-- What is loaded does not depend on the position and mode it replaces. -/
theorem exec_of_loadsPointer {i : Instr} (hi : LoadsPointer i) (s : State) (m : Mode) (a : Addr) :
    exec i (s.point m a) = exec i s := by
  obtain ⟨b, rfl⟩ | ⟨b, rfl⟩ | rfl | rfl := hi <;> rfl

/-! ### The statements -/

/-- Settles O32: in either bank the primitives are a read and a write at one storage index. -/
theorem memoryPrimitivesReadBackWhatTheyWrite : Obligations.MemoryPrimitivesReadBackWhatTheyWrite := by
  unfold Obligations.MemoryPrimitivesReadBackWhatTheyWrite
  refine fun s a v hmem => ⟨fun i hi => ?_, fun ha => ?_⟩
  · have hcell := State.setDdram_write_ddCell hmem i (v := v)
    refine ⟨memRead_dd_of_idx hi, _, memWrite_dd_of_idx v hi, rfl, hmem.setDdram_write (idx_lt s.cfg hi) v, ?_, ?_⟩
    · rw [memRead_dd_of_idx (i := i), hcell, if_pos rfl]
      exact hi
    · intro j hj
      rw [hcell, if_neg hj]
  · have hcell := State.setCgram_write_cgCell hmem a.toNat (v := v)
    have hmod : a.toNat % 64 = a.toNat := Nat.mod_eq_of_lt (by omega)
    have hwrite := memWrite_cg s a v
    rw [hmod] at hwrite
    refine ⟨by rw [memRead_cg, hmod], _, hwrite, rfl, hmem.setCgram_write (by omega) v, ?_, ?_⟩
    · rw [memRead_cg, hmod, hcell, if_pos rfl]
    · intro j hj
      rw [hcell, if_neg hj]

/-- Settles O31: each of the six loads fixed values, or values its operands name, into fixed fields. -/
theorem loadCommandsAreIdempotent : Obligations.LoadCommandsAreIdempotent := by
  unfold Obligations.LoadCommandsAreIdempotent
  intro i s t hi h
  obtain ⟨a, rfl⟩ | ⟨a, rfl⟩ | ⟨d, c, b, rfl⟩ | ⟨m, f, rfl⟩ | rfl | rfl := hi <;>
  · cases h
    rfl

/-- Settles O54: the loaded values of the four commands, and the writers of MODE (O55) for the rest. -/
theorem modeChangesOnlyByFourCommands : Obligations.ModeChangesOnlyByFourCommands := by
  unfold Obligations.ModeChangesOnlyByFourCommands
  intro i s t h
  refine ⟨?_, ?_, ?_, fun hdd hcg hhome hclear => ?_, fun hi a m => (exec_of_loadsPointer hi s m a).trans h⟩
  · rintro a rfl
    cases h
    exact ⟨rfl, rfl, validDd_normDd s.cfg a⟩
  · rintro a rfl
    cases h
    exact ⟨toNat_zext7 a, rfl⟩
  · rintro (rfl | rfl) <;>
    · cases h
      exact ⟨rfl, rfl⟩
  · obtain ⟨-, -, -, hmode, -⟩ := eachItemHasOnlyItsWriters i s t h
    by_contra hne
    obtain ⟨a, ha⟩ | ⟨a, ha⟩ | ha | ha := hmode hne
    · exact hdd a ha
    · exact hcg a ha
    · exact hhome ha
    · exact hclear ha

/-- Settles O60: the fault of an instruction that uses an invalid counter is its only outcome but a next state. -/
theorem faultExactlyAtAnInvalidCounter : Obligations.FaultExactlyAtAnInvalidCounter := by
  unfold Obligations.FaultExactlyAtAnInvalidCounter
  intro i s
  rw [← Instr.usesCounter_iff]
  obtain ⟨hi, hm, hv, hfault⟩ | ⟨hok, t, ht⟩ := exec_cases i s
  · rw [hfault]
    exact ⟨fun f => by simp [hi, hm, hv, eq_comm], nofun⟩
  · rw [ht]
    exact ⟨fun f => ⟨nofun, fun ⟨_, hm, hv, hi⟩ => absurd ⟨hi, hm, hv⟩ hok⟩, nofun⟩

/-- Settles O57: the six are among the instructions that only drive. -/
theorem queriesAndAddressReadChangeNoState : Obligations.QueriesAndAddressReadChangeNoState := by
  unfold Obligations.QueriesAndAddressReadChangeNoState
  intro i s hi
  refine exists_exec_eq_drive ?_ s
  obtain rfl | rfl | rfl | ⟨x, y, rfl⟩ | ⟨px, py, bp, rfl⟩ | rfl := hi <;> rfl

end Sys2Proof.Machine
end

section
/-! SUPPORT. The encoding of 30_encoding.md: the transaction class by `RS RW` (R81), the command by the highest set bit
of its byte (R83), the reserved query selects (R82, R87), and the opcode table cut by class, so that a word lies in exactly
one row (R88). -/

namespace Sys2Proof

/-! ### The transaction class -/

/-- The instruction of the transaction with select bits `c` = `RS RW` and byte `db`, the table of R81. -/
def classInstr (c : BitVec 2) (db : Byte) : Instr :=
  match c.getLsbD 1, c.getLsbD 0 with
  | false, false => decodeCommand db
  | false, true => .raddr
  | true, false => .wdata db
  | true, true => .rdata

@[simp] theorem decode_bus_append (c : BitVec 2) (db : Byte) : decode (.bus (c ++ db)) = .ok (classInstr c db) := by
  simp only [decode, decodeBus, BitVec.getLsbD_append, BitVec.extractLsb'_append_eq_right]
  rfl

@[simp] theorem decode_command (db : Byte) : decode (.command db) = .ok (decodeCommand db) :=
  decode_bus_append 0b00#2 db

/-- Every transaction word is a class and a byte (R80). -/
theorem exists_class_append (w : BitVec 10) : ∃ (c : BitVec 2) (db : Byte), w = c ++ db :=
  ⟨w.extractLsb' 8 2, w.extractLsb' 0 8, BitVec.extractLsb'_eq_self.symm.trans
    (BitVec.extractLsb'_append_extractLsb'_eq_extractLsb' (start₁ := 0) (len₁ := 8) (len₂ := 2) rfl).symm⟩

theorem class_cases (c : BitVec 2) : c = 0b00#2 ∨ c = 0b01#2 ∨ c = 0b10#2 ∨ c = 0b11#2 := by
  revert c
  decide

/-! ### The reserved query selects -/

theorem decode_query_of_reserved {q : BitVec 3} (h : 5 ≤ q.toNat) (qx qy : BitVec 16) (bp : Bool) :
    decode (.query q qx qy bp) = .error (.reservedQuery q) := by
  have hne : ∀ k : BitVec 3, k.toNat < 5 → q ≠ k := by
    rintro k hk rfl
    omega
  simp [decode, decodeQuery, hne]

/-! ### The command by the highest set bit -/

/-- Bit `p` of the command byte is its highest set bit (R83). -/
def HighestBit (b : Byte) (p : Nat) : Prop := b.getLsbD p = true ∧ ∀ j, p < j → b.getLsbD j = false

/-- The command of the byte `b` whose highest set bit is `p`, the table of R83. -/
def commandAt (b : Byte) : Nat → Instr
  | 7 => .setdd (b.extractLsb' 0 7)
  | 6 => .setcg (b.extractLsb' 0 6)
  | 5 => .rsvd5
  | 4 => decodeShift b
  | 3 => .dispctl (b.getLsbD 2) (b.getLsbD 1) (b.getLsbD 0)
  | 2 => .entry (b.getLsbD 1) (b.getLsbD 0)
  | 1 => .home
  | _ => .clear

section
variable {b : Byte} {p : Nat}

theorem HighestBit.lt_eight (h : HighestBit b p) : p < 8 := by
  obtain ⟨hp, -⟩ := h
  by_contra hge
  rw [BitVec.getLsbD_of_ge b p (by omega)] at hp
  cases hp

theorem decodeCommand_of_highestBit (h : HighestBit b p) : decodeCommand b = commandAt b p := by
  have hlt := h.lt_eight
  obtain ⟨hp, hzero⟩ := h
  interval_cases p <;> simp [decodeCommand, commandAt, hp, hzero, -BitVec.getLsbD_eq_getElem]

/-- Between two powers of two the lower one is the highest set bit. -/
theorem highestBit_of_range (hlo : 2 ^ p ≤ b.toNat) (hhi : b.toNat < 2 ^ (p + 1)) : HighestBit b p := by
  refine ⟨?_, fun j hj => ?_⟩
  · rw [← BitVec.testBit_toNat]
    exact Nat.testBit_of_two_pow_le_and_two_pow_add_one_gt hlo hhi
  · rw [← BitVec.testBit_toNat]
    exact Nat.testBit_lt_two_pow (hhi.trans_le (Nat.pow_le_pow_right two_pos hj))

theorem decode_command_of_range (hlo : 2 ^ p ≤ b.toNat) (hhi : b.toNat < 2 ^ (p + 1)) :
    decode (.command b) = .ok (commandAt b p) := by
  rw [decode_command, decodeCommand_of_highestBit (highestBit_of_range hlo hhi)]

/-- The field below the highest set bit. -/
theorem extractLsb'_of_range (hlo : 2 ^ p ≤ b.toNat) :
    b.extractLsb' 0 p = BitVec.ofNat p (b.toNat - 2 ^ p) := by
  apply BitVec.eq_of_toNat_eq
  rw [BitVec.extractLsb'_toNat, BitVec.toNat_ofNat, Nat.shiftRight_zero, Nat.mod_eq_sub_mod hlo]

/-- A shift command ignores its two low bits (R85). -/
theorem decodeShift_eq_of_div_four {b' : Byte} (h : b.toNat / 4 = b'.toNat / 4) : decodeShift b = decodeShift b' := by
  have hbit : ∀ j, b.getLsbD (j + 2) = b'.getLsbD (j + 2) := fun j => by
    rw [← BitVec.testBit_toNat, ← BitVec.testBit_toNat, ← Nat.testBit_div_two_pow, ← Nat.testBit_div_two_pow, h]
  rw [decodeShift, decodeShift, hbit 0, hbit 1]

/-- The two bits `sc rl` of a byte 0x10..0x1F select the shift command, whatever is in the two bits below. -/
theorem decode_shift_command {b' : Byte} (h : b.toNat / 4 = b'.toNat / 4)
    (hlo : 0x10 ≤ b'.toNat) (hhi : b'.toNat < 0x20) : decode (.command b) = .ok (decodeShift b') := by
  rw [decode_command_of_range (p := 4) (by omega) (by omega), commandAt, decodeShift_eq_of_div_four h]

end

/-! ### The opcode table by class -/

/-- A row of the opcode table that fixes the class and, under its mask, the byte. -/
def busRow (c : BitVec 2) (r : OpcodeRow 8) : OpcodeRow 10 := ⟨r.mnemonic, c ++ r.pattern, 0b11#2 ++ r.mask⟩

@[simp] theorem busRow_mnemonic (c : BitVec 2) (r : OpcodeRow 8) : (busRow c r).mnemonic = r.mnemonic := rfl

/-- The twelve command rows of R84, by their byte. -/
def commandRows : List (OpcodeRow 8) :=
  [⟨"SETDD", 0x80, 0x80⟩, ⟨"SETCG", 0x40, 0xC0⟩, ⟨"RSVD5", 0x20, 0xE0⟩, ⟨"CURL", 0x10, 0xFC⟩, ⟨"CURR", 0x14, 0xFC⟩,
   ⟨"DSPL", 0x18, 0xFC⟩, ⟨"DSPR", 0x1C, 0xFC⟩, ⟨"DISPCTL", 0x08, 0xF8⟩, ⟨"ENTRY", 0x04, 0xFC⟩, ⟨"HOME", 0x02, 0xFE⟩,
   ⟨"CLEAR", 0x01, 0xFF⟩, ⟨"NOP", 0x00, 0xFF⟩]

/-- A row that every byte of its class lies in. -/
def wholeClass (mnemonic : String) : OpcodeRow 8 := ⟨mnemonic, 0, 0⟩

theorem busRows_eq : busRows = commandRows.map (busRow 0b00#2) ++ [wholeClass "RADDR"].map (busRow 0b01#2) ++
    [wholeClass "WDATA"].map (busRow 0b10#2) ++ [wholeClass "RDATA"].map (busRow 0b11#2) := by
  decide

/-- Equal concatenations have equal parts. -/
theorem append_eq_append_iff {m n : Nat} {a c : BitVec m} {b d : BitVec n} : a ++ b = c ++ d ↔ a = c ∧ b = d := by
  refine ⟨fun h => ⟨?_, ?_⟩, fun ⟨ha, hb⟩ => by rw [ha, hb]⟩
  · rw [← BitVec.extractLsb'_append_eq_left (a := a) (b := b), h, BitVec.extractLsb'_append_eq_left]
  · rw [← BitVec.extractLsb'_append_eq_right (a := a) (b := b), h, BitVec.extractLsb'_append_eq_right]

/-- A word lies in a row when its class is the row's and its byte lies in the row. -/
theorem rowMatches_busRow (c c' : BitVec 2) (r : OpcodeRow 8) (db : Byte) :
    rowMatches (busRow c r) (c' ++ db) = (decide (c' = c) && rowMatches r db) := by
  calc rowMatches (busRow c r) (c' ++ db)
      = decide ((c' ++ db) &&& (BitVec.allOnes 2 ++ r.mask) = c ++ r.pattern) := rfl
    _ = decide (c' ++ (db &&& r.mask) = c ++ r.pattern) := by rw [BitVec.and_append, BitVec.and_allOnes]
    _ = (decide (c' = c) && rowMatches r db) := by
      simp only [append_eq_append_iff, Bool.decide_and]
      rfl

theorem filter_wholeClass (mnemonic : String) (db : Byte) :
    ([wholeClass mnemonic].filter fun r => rowMatches r db).map OpcodeRow.mnemonic = [mnemonic] := by
  simp [rowMatches, wholeClass]

/-- R83 as rows: a command byte lies in the row of its command and in no other, a check of the 256 bytes. -/
theorem commandRows_filter (db : Byte) :
    (commandRows.filter fun r => rowMatches r db).map OpcodeRow.mnemonic = [(decodeCommand db).mnemonic] := by
  revert db
  decide

/-- Of the rows of one class a word lies in those its byte lies in, if it is of that class. -/
theorem filter_map_busRow (c c' : BitVec 2) (rows : List (OpcodeRow 8)) (db : Byte) :
    ((rows.map (busRow c)).filter fun r => rowMatches r (c' ++ db)).map OpcodeRow.mnemonic =
      if c' = c then (rows.filter fun r => rowMatches r db).map OpcodeRow.mnemonic else [] := by
  simp only [List.filter_map, List.map_map, Function.comp_def, rowMatches_busRow, busRow_mnemonic]
  by_cases h : c' = c <;> simp [h]

/-- A word lies in the row of its command if its class is the command write, and otherwise in the row of its class. -/
theorem busRows_filter (c : BitVec 2) (db : Byte) :
    (busRows.filter fun r => rowMatches r (c ++ db)).map OpcodeRow.mnemonic = [(classInstr c db).mnemonic] := by
  simp only [busRows_eq, List.filter_append, List.map_append, filter_map_busRow, commandRows_filter, filter_wholeClass]
  obtain rfl | rfl | rfl | rfl := class_cases c <;> rfl

namespace Machine

theorem step_of_reserved {s : State} {q : BitVec 3} {qx qy : BitVec 16} {bp : Bool} {rest : List PortWord}
    (hw : s.inbox = .query q qx qy bp :: rest) (hq : 5 ≤ q.toNat) : step s = .next ((s.take rest).drive .reserved) := by
  refine (step_eq_next_iff s _).2 ⟨_, _, hw, (runWord_eq_next_iff _ _ _).2 (.inr ⟨q, ?_, rfl⟩)⟩
  exact decode_query_of_reserved hq qx qy bp

/-! ### The statements -/

/-- Settles O10: a bus operand is a field of the word, and a well-formed query operand fits its port. -/
theorem decodeReadsBackEveryEncoding : Obligations.DecodeReadsBackEveryEncoding := by
  unfold Obligations.DecodeReadsBackEveryEncoding
  exact decode_encode

/-- Settles O11: a range between two powers of two is a highest set bit. -/
theorem commandByteDecodesByHighestSetBit : Obligations.CommandByteDecodesByHighestSetBit := by
  unfold Obligations.CommandByteDecodesByHighestSetBit
  refine fun b => ⟨fun h => ?setdd, fun h h' => ?setcg, fun h h' => ?rsvd5, fun h h' => ?dspr, fun h h' => ?dspl,
    fun h h' => ?curr, fun h h' => ?curl, fun h h' => ?dispctl, fun h h' => ?entry, fun h h' => ?home,
    fun h => ?clear, fun h => ?nop⟩
  case setdd =>
    rw [decode_command_of_range (p := 7) h b.isLt, commandAt, extractLsb'_of_range (p := 7) h]
    rfl
  case setcg =>
    rw [decode_command_of_range (p := 6) h h', commandAt, extractLsb'_of_range (p := 6) h]
    rfl
  case rsvd5 => exact decode_command_of_range (p := 5) h h'
  case dspr => exact decode_shift_command (b' := 0x1C) (by simp; omega) (by decide) (by decide)
  case dspl => exact decode_shift_command (b' := 0x18) (by simp; omega) (by decide) (by decide)
  case curr => exact decode_shift_command (b' := 0x14) (by simp; omega) (by decide) (by decide)
  case curl => exact decode_shift_command (b' := 0x10) (by simp; omega) (by decide) (by decide)
  case dispctl => exact decode_command_of_range (p := 3) h h'
  case entry => exact decode_command_of_range (p := 2) h h'
  case home => exact decode_command_of_range (p := 1) h h'
  case clear => exact decode_command_of_range (p := 0) (by omega) (by omega)
  case nop =>
    obtain rfl : b = 0 := BitVec.eq_of_toNat_eq h
    rfl

/-- Settles O8: the reserved select decodes to no instruction, and its answer drives `qok = 0` alone. -/
theorem reservedQueryAnswersNotOk : Obligations.ReservedQueryAnswersNotOk := by
  unfold Obligations.ReservedQueryAnswersNotOk
  exact fun s rest q qx qy bp hq hw => ⟨step_of_reserved hw hq, rfl, rfl⟩

/-- Settles O12: a word is a class and a byte, and the two lie in one row. -/
theorem everyBusWordLiesInExactlyOneRow : Obligations.EveryBusWordLiesInExactlyOneRow := by
  unfold Obligations.EveryBusWordLiesInExactlyOneRow
  intro w
  obtain ⟨c, db, rfl⟩ := exists_class_append w
  exact ⟨_, decode_bus_append c db, busRows_filter c db⟩

/-- Settles O13, class by class and select by select. -/
theorem classesAndQueriesDecodeBySelect : Obligations.ClassesAndQueriesDecodeBySelect := by
  unfold Obligations.ClassesAndQueriesDecodeBySelect
  intro db qx qy bp
  exact ⟨rfl, decode_bus_append 0b01#2 db, decode_bus_append 0b10#2 db, decode_bus_append 0b11#2 db, rfl, rfl, rfl, rfl,
    rfl, fun q hq => decode_query_of_reserved hq qx qy bp⟩

/-- Settles O14: thirteen words, each evaluated. -/
theorem writtenOutWordsDecode : Obligations.WrittenOutWordsDecode := by
  unfold Obligations.WrittenOutWordsDecode
  decide

end Machine
end Sys2Proof
end

section
/-! SUPPORT. The address-set commands (R100, R101): the pointer they load, the byte an address read returns from it, and the
data that comes back where it was written (R102). -/

namespace Sys2Proof.Machine

variable {s t : State}

/-! ### The address read and the cursor -/

theorem toNat_addressByte (a : Addr) : (addressByte a).toNat = a.toNat := by
  rw [addressByte, BitVec.toNat_append]
  simp

/-- A field of 6 bits leaves the counter's bit 6 clear (R86). -/
theorem zext7_getLsbD_six (a : BitVec 6) : (zext7 a).getLsbD 6 = false := by
  rw [← BitVec.testBit_toNat, toNat_zext7]
  exact Nat.testBit_lt_two_pow a.isLt

/-- In CGRAM mode no cell is the cursor cell (R171). -/
theorem cursorAt_of_cgram (h : s.mode = .cgram) (x : Addr) (iy : Fin 8) (bp : Bool) : s.cursorAt x iy bp = false := by
  simp [State.cursorAt, h]

/-! ### A byte written is read back -/

theorem execList_singleton (i : Instr) (s : State) : execList [i] s = exec i s := by
  rw [execList_cons]
  cases exec i s <;> rfl

/-- With the counter and mode of a data write loaded again, the operand is the byte written (R56, R140). -/
theorem operand_point_of_execWdata {v : Byte} (hmem : s.MemoryOk) (h : exec (.wdata v) s = .next t) :
    (t.point s.mode s.ac).operand = .ok v := by
  obtain ⟨hcfg, -⟩ := exec_sameHost h
  obtain ⟨k, hk, hdd, hcg⟩ := (effect_of_exec h).wdata_cells hmem
  rw [State.operand, State.point_mode, State.point_ac]
  cases hm : s.mode with
  | ddram =>
    obtain ⟨hstore, -⟩ := hdd hm
    have hidx : idx (t.point .ddram s.ac).cfg.raw s.ac = some k := by
      rw [State.point_cfg, hcfg, ← operandIndex_of_ddram hm, hk]
    rw [bankOf, memRead_dd_of_idx hidx, State.point_ddCell, hstore, if_pos rfl]
  | cgram =>
    obtain ⟨hstore, -⟩ := hcg hm
    have hidx : s.ac.toNat % 64 = k := Option.some.inj ((operandIndex_of_cgram hm).symm.trans hk)
    rw [bankOf, memRead_cg, State.point_cgCell, hstore, if_pos hidx]

/-- RDATA completes at a counter that has a meaning, and drives its operand (R143). -/
theorem exists_exec_rdata {v : Byte} (h : s.CounterOk) (hv : s.operand = .ok v) :
    ∃ t, exec .rdata s = .next t ∧ t.out = .dout v := by
  obtain ⟨a, ha⟩ := exists_adv h s.entryDir
  exact ⟨_, execRdata_eq_next_iff.2 ⟨v, a, hv, ha, rfl⟩, rfl⟩

/-- R102 for either bank: `load` is a command that loads mode `m` and address `a` in every state of this configuration. -/
theorem execList_load_write_load_read {load : Instr} {m : Mode} {a : Addr} (v : Byte) (hmem : s.MemoryOk)
    (hload : ∀ u : State, u.cfg = s.cfg → exec load u = .next ((u.point m a).drive .undriven))
    (ha : m = .ddram → validDd s.cfg.raw a = true) :
    ∃ t, execList [load, .wdata v, load, .rdata] s = .next t ∧ t.out = .dout v := by
  have hcounter : ((s.point m a).drive .undriven).CounterOk := ha
  obtain ⟨q, hwrite⟩ := completes_exec (i := .wdata v) fun _ => hcounter
  have hcfg : q.cfg = s.cfg := (exec_sameHost hwrite).1
  have hcounter' : ((q.point m a).drive .undriven).CounterOk := by
    intro hm
    rw [State.drive_cfg, State.point_cfg, hcfg]
    exact ha hm
  have hoperand : (q.point m a).operand = .ok v :=
    operand_point_of_execWdata (s := (s.point m a).drive .undriven) hmem hwrite
  obtain ⟨t, hread, hout⟩ := exists_exec_rdata hcounter' hoperand
  refine ⟨t, ?_, hout⟩
  calc execList [load, .wdata v, load, .rdata] s
    _ = execList [.wdata v, load, .rdata] ((s.point m a).drive .undriven) := by
      rw [execList_cons, hload s rfl, andThen]
    _ = execList [load, .rdata] q := by rw [execList_cons, hwrite, andThen]
    _ = execList [.rdata] ((q.point m a).drive .undriven) := by rw [execList_cons, hload q hcfg, andThen]
    _ = .next t := by rw [execList_singleton, hread]

/-! ### The statements -/

/-- Settles O39: SETDD of a valid address, and SETCG of any field, load the same pointer both times. -/
theorem dataRoundTripInBothBanks : Obligations.DataRoundTripInBothBanks := by
  unfold Obligations.DataRoundTripInBothBanks
  refine fun s v hmem => ⟨fun a ha => ?_, fun a => ?_⟩
  · have hload (u : State) (hu : u.cfg = s.cfg) : exec (.setdd a) u = .next ((u.point .ddram a).drive .undriven) := by
      rw [exec, execSetdd, hu, normDd_of_validDd s.cfg ha]
    exact execList_load_write_load_read v hmem hload fun _ => ha
  · exact execList_load_write_load_read v hmem (m := .cgram) (a := zext7 a) (fun _ _ => rfl) nofun

/-- Settles O20, from the value of the normalised field above and below the second base. -/
theorem setddLoadsTheNormalisedAddress : Obligations.SetddLoadsTheNormalisedAddress := by
  unfold Obligations.SetddLoadsTheNormalisedAddress
  exact fun s a => ⟨_, rfl, rfl, toNat_normDd_of_le s.cfg, toNat_normDd_of_lt s.cfg⟩

/-- Settles O21: the byte 01aaaaaa is the encoding of SETCG, and bit 7 is the highest set bit from 0xC0 on. -/
theorem setcgLoadsTheField : Obligations.SetcgLoadsTheField := by
  unfold Obligations.SetcgLoadsTheField
  refine ⟨fun s a => ⟨_, rfl, ?word, rfl, toNat_zext7 a, zext7_getLsbD_six a, ?read, cursorAt_of_cgram rfl⟩,
    fun b hb => ⟨_, decode_command_of_range (p := 7) (by omega) b.isLt⟩⟩
  case word => exact (runWord_eq_next_iff _ s _).2 (.inl ⟨_, decode_encode (.setcg a) rfl, rfl⟩)
  case read => exact ⟨_, rfl, (toNat_addressByte (zext7 a)).trans (toNat_zext7 a)⟩

end Sys2Proof.Machine
end

section
/-! SUPPORT. The shift commands (R110 to R113): one step of the counter or of the viewport, by the formulas of the
statements. -/

namespace Sys2Proof.Machine

variable {s : State}

/-- `ADV` and `SHMOVE` step to the neighbour of the statements (R59, R61); the direction is written as in `entryDir`. -/
theorem wrapStep_eq_neighbour {n x : Nat} (hx : x < n) (up : Bool) :
    wrapStep n x (if up then .inc else .dec) = neighbour up n x := by
  cases up with
  | true => exact wrapStep_inc n x
  | false => exact wrapStep_dec hx

/-- R110, R111 in DDRAM mode: the column steps inside its line. -/
theorem cursorShift_of_lineAddr {l : Line} {col : Nat} (hm : s.mode = .ddram) (hc : col < 40)
    (hac : s.ac = lineAddr s.cfg.raw l col) (up : Bool) :
    cursorShift (if up then .inc else .dec) s =
      .next ((s.setAc (lineAddr s.cfg.raw l (neighbour up 40 col))).drive .undriven) :=
  cursorShift_eq_next_iff.2 ⟨_, by rw [hm, hac, adv_ddram_lineAddr s.cfg l hc, wrapStep_eq_neighbour hc], rfl⟩

/-- R110, R111 in CGRAM mode: the counter steps inside 0..63 (D6). -/
theorem cursorShift_of_cgram (hm : s.mode = .cgram) (ha : s.ac.toNat < 64) (up : Bool) :
    cursorShift (if up then .inc else .dec) s =
      .next ((s.setAc (BitVec.ofNat 7 (neighbour up 64 s.ac.toNat))).drive .undriven) :=
  cursorShift_eq_next_iff.2 ⟨_, by rw [hm, adv_cgram, wrapStep_eq_neighbour ha], rfl⟩

/-- R112, R113: the viewport steps modulo 40, whatever the mode. -/
theorem displayShift_eq_neighbour (h : s.sh.toNat < 40) (up : Bool) :
    displayShift (if up then .inc else .dec) s =
      .next ((s.setSh (BitVec.ofNat 6 (neighbour up 40 s.sh.toNat))).drive .undriven) := by
  rw [displayShift, shmove, lineCap, wrapStep_eq_neighbour h]

/-! ### The statements -/

/-- Settles O22: CURL is the cursor shift down and CURR the one up, in the ring of the counter's mode. -/
theorem cursorShiftMovesTheCounterOneColumn : Obligations.CursorShiftMovesTheCounterOneColumn := by
  unfold Obligations.CursorShiftMovesTheCounterOneColumn
  refine fun s => ⟨fun l col hm hc hac => ?ddram, fun hm ha => ?cgram⟩
  case ddram => exact ⟨cursorShift_of_lineAddr hm hc hac false, cursorShift_of_lineAddr hm hc hac true⟩
  case cgram =>
    have hlt : s.ac.toNat < 64 := Nat.lt_succ_of_le ha
    exact ⟨cursorShift_of_cgram hm hlt false, cursorShift_of_cgram hm hlt true⟩

/-- Settles O23: DSPL is the display shift up and DSPR the one down (D9). -/
theorem displayShiftMovesTheWindowOneColumn : Obligations.DisplayShiftMovesTheWindowOneColumn := by
  unfold Obligations.DisplayShiftMovesTheWindowOneColumn
  intro s hle
  have hlt : s.sh.toNat < 40 := Nat.lt_succ_of_le hle
  exact ⟨displayShift_eq_neighbour hlt true, displayShift_eq_neighbour hlt false⟩

end Sys2Proof.Machine
end

section
/-! SUPPORT. The control-register commands (R120, R121): as bytes they are the ranges of a highest set bit (R83), and the
flags they load are the bits below it. -/

namespace Sys2Proof.Machine

/-- Running a command byte is running the command of its highest set bit (R83). -/
theorem runWord_command_of_range {b : Byte} {p : Nat} (hlo : 2 ^ p ≤ b.toNat) (hhi : b.toNat < 2 ^ (p + 1)) (s : State) :
    runWord (.command b) s = exec (commandAt b p) s := by
  rw [runWord, decode_command_of_range hlo hhi]

/-! ### The statements -/

/-- Settles O25: the two updates of DISPCTL are those of the three flags and the output, and a byte 0x08..0x0F has bit 3
as its highest. -/
theorem dispctlLoadsThreeFlags : Obligations.DispctlLoadsThreeFlags := by
  unfold Obligations.DispctlLoadsThreeFlags
  exact ⟨fun _ _ _ _ => rfl, fun s _ hlo hhi => runWord_command_of_range (p := 3) hlo hhi s⟩

/-- Settles O26: the two updates of ENTRY are those of the two flags and the output, and a byte 0x04..0x07 has bit 2 as
its highest. -/
theorem entryLoadsTwoFlags : Obligations.EntryLoadsTwoFlags := by
  unfold Obligations.EntryLoadsTwoFlags
  exact ⟨fun _ _ _ => rfl, fun s _ hlo hhi => runWord_command_of_range (p := 2) hlo hhi s⟩

end Sys2Proof.Machine
end

section
/-! SUPPORT. HOME, CLEAR, NOP and the reserved command bytes (R130 to R133): the state each leaves, and as bytes the ranges of
a highest set bit or, for NOP, the byte without one (R83). -/

namespace Sys2Proof.Machine

/-- Running the encoding of an instruction is running the instruction. -/
theorem runWord_encode {i : Instr} (h : i.wellFormed = true) (s : State) : runWord (encode i) s = exec i s := by
  rw [runWord, decode_encode i h]

/-- R131: every byte of display memory holds the fill byte. -/
theorem State.fillDdram_ddCell (s : State) (v : Byte) {i : Nat} (hi : i < 80) : (s.fillDdram v).ddCell i = v :=
  Memory.read_fill hi

/-! ### The statements -/

/-- Settles O28: display memory is a fill with `BLANK`, so every byte reads as it and the list is canonical; the other
updates of CLEAR touch no byte. -/
theorem clearFillsDisplayMemory : Obligations.ClearFillsDisplayMemory := by
  unfold Obligations.ClearFillsDisplayMemory
  refine fun s => ⟨(((s.fillDdram s.cfg.raw.blank).point .ddram 0).forceIncrement).drive .undriven, rfl, ?cells, rfl, ?form⟩
  case cells => exact fun _ hi => s.fillDdram_ddCell s.cfg.raw.blank hi
  case form => exact Memory.wf_fill s.cfg.raw.blank

/-- Settles O27: the three updates of HOME are those of counter and mode, viewport and output, and both bytes have bit 1
as their highest. -/
theorem homeResetsPointerAndViewport : Obligations.HomeResetsPointerAndViewport := by
  unfold Obligations.HomeResetsPointerAndViewport
  exact fun s => ⟨rfl, runWord_command_of_range (p := 1) (by decide) (by decide) s,
    runWord_command_of_range (p := 1) (by decide) (by decide) s⟩

/-- Settles O29: NOP only drives nothing, and the byte 0x00 is its encoding. -/
theorem nopChangesNothing : Obligations.NopChangesNothing := by
  unfold Obligations.NopChangesNothing
  exact fun s => ⟨rfl, runWord_encode (i := .nop) rfl s⟩

/-- Settles O30: RSVD5 only drives nothing, and a byte 0x20..0x3F has bit 5 as its highest. -/
theorem reservedCommandBytesChangeNothing : Obligations.ReservedCommandBytesChangeNothing := by
  unfold Obligations.ReservedCommandBytesChangeNothing
  exact ⟨fun _ => rfl, fun s _ hlo hhi => runWord_command_of_range (p := 5) hlo hhi s⟩

end Sys2Proof.Machine
end

section
/-! SUPPORT. The data accesses (R140 to R145): what one write and one read do at a counter that has a meaning,
what they share, and what a text written or read code by code leaves (R142, R147). -/

namespace Sys2Proof.Machine

variable {s t : State}

/-! ### The advance and the viewport step by the formulas of the statements -/

theorem adv_of_lineAddr {l : Line} {col : Nat} (hm : s.mode = .ddram) (hc : col < 40)
    (hac : s.ac = lineAddr s.cfg.raw l col) :
    adv s.cfg.raw s.ac s.mode s.entryDir = .ok (lineAddr s.cfg.raw l (neighbour s.id 40 col)) := by
  rw [hm, hac, adv_ddram_lineAddr s.cfg l hc, State.entryDir, wrapStep_eq_neighbour hc]

theorem adv_of_cgram (hm : s.mode = .cgram) (ha : s.ac.toNat < 64) :
    adv s.cfg.raw s.ac s.mode s.entryDir = .ok (BitVec.ofNat 7 (neighbour s.id 64 s.ac.toNat)) := by
  rw [hm, adv_cgram, State.entryDir, wrapStep_eq_neighbour ha]

theorem neighbour_lt {n : Nat} (hn : 0 < n) (up : Bool) (x : Nat) : neighbour up n x < n := by
  rw [neighbour]
  split <;> exact Nat.mod_lt _ hn

/-- A step of a ring of 40 leaves its place. -/
theorem neighbour_ne (up : Bool) (x : Nat) : neighbour up 40 x ≠ x := by
  rw [neighbour]
  split <;> omega

theorem shmove_entryDir (h : s.sh.toNat < 40) :
    shmove s.sh s.entryDir = BitVec.ofNat 6 (neighbour s.id 40 s.sh.toNat) := by
  rw [shmove, lineCap, State.entryDir, wrapStep_eq_neighbour h]

/-- A column of a line fits the 6 bits of the viewport offset. -/
theorem toNat_ofNat_six {x : Nat} (h : x < 40) : (BitVec.ofNat 6 x).toNat = x := by
  rw [BitVec.toNat_ofNat, Nat.mod_eq_of_lt (by omega)]

/-! ### One write -/

/-- With a store and an advance that answer, WDATA is the two and the shift on write (R140). -/
theorem exec_wdata_of_store {q : State} {a : Addr} {v : Byte} (hq : s.storeOperand v = .ok q)
    (ha : adv s.cfg.raw s.ac s.mode s.entryDir = .ok a) :
    exec (.wdata v) s = .next ((q.setAc a).shiftOnWrite.drive .undriven) := by
  have hadv : q.advance q.entryDir = .ok (q.setAc a) := by
    obtain ⟨-, i, -, -, rfl⟩ | ⟨-, rfl⟩ := memWrite_eq_ok hq <;> exact (advance_eq_ok_iff _ _ _).2 ⟨a, ha, rfl⟩
  rw [exec, execWdata, hq, withOk_ok, hadv, withOk_ok]

/-- WDATA at a column of a line (R140, R141). -/
theorem exec_wdata_of_lineAddr {l : Line} {col : Nat} (v : Byte) (hm : s.mode = .ddram) (hc : col < 40)
    (hac : s.ac = lineAddr s.cfg.raw l col) (hsh : s.sh.toNat < 40) :
    exec (.wdata v) s = .next
      ((((s.setDdram (Memory.write s.cfg.raw.ddramResetByte s.ddram (40 * l.val + col) v)).setAc
        (lineAddr s.cfg.raw l (neighbour s.id 40 col))).setSh
          (if s.s then BitVec.ofNat 6 (neighbour s.id 40 s.sh.toNat) else s.sh)).drive .undriven) := by
  have hidx : idx s.cfg.raw s.ac = some (40 * l.val + col) := by rw [hac, idx_lineAddr s.cfg l hc]
  have hstore : s.storeOperand v =
      .ok (s.setDdram (Memory.write s.cfg.raw.ddramResetByte s.ddram (40 * l.val + col) v)) := by
    rw [State.storeOperand, bankOf_eq_dd_iff.2 hm, memWrite_dd_of_idx v hidx]
  rw [exec_wdata_of_store hstore (adv_of_lineAddr hm hc hac), ← shmove_entryDir hsh, shiftOnWrite_of_ddram]
  · rfl
  · exact hm

/-- WDATA in CGRAM mode (R140, D13). -/
theorem exec_wdata_of_cgram (v : Byte) (hm : s.mode = .cgram) (ha : s.ac.toNat < 64) :
    exec (.wdata v) s = .next
      (((s.setCgram (Memory.write 0x00#8 s.cgram s.ac.toNat v)).setAc
        (BitVec.ofNat 7 (neighbour s.id 64 s.ac.toNat))).drive .undriven) := by
  have hstore : s.storeOperand v = .ok (s.setCgram (Memory.write 0x00#8 s.cgram s.ac.toNat v)) := by
    rw [State.storeOperand, bankOf_eq_cg_iff.2 hm, memWrite_cg, Nat.mod_eq_of_lt ha]
  rw [exec_wdata_of_store hstore (adv_of_cgram hm ha), shiftOnWrite_of_cgram]
  exact hm

/-- Whatever the mode, a write that completes advances the counter and shifts, and but for the banks changes nothing
else (R140, R141). -/
theorem exec_wdata_frame {v : Byte} (h : exec (.wdata v) s = .next t) :
    ∃ a, adv s.cfg.raw s.ac s.mode s.entryDir = .ok a ∧
      t = { s with ddram := t.ddram, cgram := t.cgram, ac := a, sh := s.shiftOnWrite.sh, out := .undriven } := by
  cases effect_of_exec h with
  | drives hi => cases hi
  | advances hi => simp at hi
  | shifts hi => simp at hi
  | wdataDd v hm hk ha =>
    refine ⟨_, ha, ?_⟩
    rw [shiftOnWrite_of_ddram hm]
    rfl
  | wdataCg v hm ha =>
    refine ⟨_, ha, ?_⟩
    rw [shiftOnWrite_of_cgram hm]
    rfl

/-! ### One read -/

theorem operand_of_lineAddr {l : Line} {col : Nat} (hm : s.mode = .ddram) (hc : col < 40)
    (hac : s.ac = lineAddr s.cfg.raw l col) : s.operand = .ok (s.ddCell (40 * l.val + col)) := by
  have hidx : idx s.cfg.raw s.ac = some (40 * l.val + col) := by rw [hac, idx_lineAddr s.cfg l hc]
  rw [State.operand, bankOf_eq_dd_iff.2 hm, memRead_dd_of_idx hidx]

theorem operand_of_cgram (hm : s.mode = .cgram) (ha : s.ac.toNat < 64) : s.operand = .ok (s.cgCell s.ac.toNat) := by
  rw [State.operand, bankOf_eq_cg_iff.2 hm, memRead_cg, Nat.mod_eq_of_lt ha]

/-- Bit 7 of an address read is 0 (D23). -/
theorem addressByte_getLsbD_seven (a : Addr) : (addressByte a).getLsbD 7 = false := by
  rw [← BitVec.testBit_toNat, toNat_addressByte]
  exact Nat.testBit_lt_two_pow a.isLt

/-! ### A text written from a column of a line, with increment -/

theorem wstr_cons (c : Byte) (text : List Byte) : wstr (c :: text) = .wdata c :: wstr text := rfl

/-- The next code is written at column `col` of line `l`, and the one after it a column on. -/
structure State.TypesAt (s : State) (l : Line) (col : Nat) : Prop where
  inv : s.Inv
  mode : s.mode = .ddram
  id : s.id = true
  col_lt : col < 40
  ac : s.ac = lineAddr s.cfg.raw l col

/-- One code of a text. -/
theorem State.TypesAt.exec_wdata {l : Line} {col : Nat} (h : s.TypesAt l col) (v : Byte) :
    ∃ q, exec (.wdata v) s = .next q ∧ q.TypesAt l ((col + 1) % 40) ∧ q.cfg = s.cfg ∧ q.s = s.s ∧
      q.sh.toNat = (if s.s then (s.sh.toNat + 1) % 40 else s.sh.toNat) ∧
      ∀ j, q.ddCell j = if j = 40 * l.val + col then v else s.ddCell j := by
  obtain ⟨hinv, hm, hid, hc, hac⟩ := h
  have ⟨⟨_, _, hsh⟩, hmem⟩ := hinv
  have hexec := exec_wdata_of_lineAddr v hm hc hac (Nat.lt_succ_of_le hsh)
  have hup (x : Nat) : neighbour s.id 40 x = (x + 1) % 40 := if_pos hid
  rw [hup, hup] at hexec
  refine ⟨_, hexec, ⟨(effect_of_exec hexec).keeps_inv hinv, hm, hid, Nat.mod_lt _ (by omega), rfl⟩, rfl, rfl, ?_,
    fun j => State.setDdram_write_ddCell hmem _ j v⟩
  rw [State.drive_sh, State.setSh_sh]
  split
  · exact toNat_ofNat_six (Nat.mod_lt _ (by omega))
  · rfl

/-- R147 (a), (d), by induction on the text. -/
theorem State.TypesAt.execList_wstr {l : Line} {col : Nat} (text : List Byte) (h : s.TypesAt l col) :
    ∃ t, execList (wstr text) s = .next t ∧ t.ac = lineAddr s.cfg.raw l ((col + text.length) % 40) ∧
      t.sh.toNat = (if s.s then (s.sh.toNat + text.length) % 40 else s.sh.toNat) := by
  induction text generalizing s col with
  | nil =>
    obtain ⟨⟨⟨-, -, hsh⟩, -⟩, -, -, hc, hac⟩ := h
    refine ⟨s, rfl, ?_, ?_⟩
    · rw [hac, List.length_nil, Nat.add_zero, Nat.mod_eq_of_lt hc]
    · rw [List.length_nil, Nat.add_zero, Nat.mod_eq_of_lt (Nat.lt_succ_of_le hsh), ite_self]
  | cons c text ih =>
    obtain ⟨q, hq, hnext, hcfg, hs, hsh, -⟩ := h.exec_wdata c
    obtain ⟨t, ht, htac, htsh⟩ := ih hnext
    refine ⟨t, ?_, ?_, ?_⟩
    · rw [wstr_cons, execList_cons, hq]
      exact ht
    · rw [htac, hcfg, List.length_cons, Nat.mod_add_mod, Nat.add_right_comm, Nat.add_assoc]
    · rw [htsh, hs, hsh, List.length_cons]
      split
      · rw [Nat.mod_add_mod, Nat.add_right_comm, Nat.add_assoc]
      · rfl

/-- R142, by induction on the text: at most 39 codes follow the first, so none of them reaches its column again. -/
theorem State.TypesAt.ddCell_of_execList_wstr {l : Line} {col : Nat} {text : List Byte} (h : s.TypesAt l col)
    (hlen : text.length ≤ 40) (ht : execList (wstr text) s = .next t) :
    (∀ n, n < text.length → t.ddCell (40 * l.val + (col + n) % 40) = text.getD n 0) ∧
    (∀ j, (∀ n, n < text.length → j ≠ 40 * l.val + (col + n) % 40) → t.ddCell j = s.ddCell j) := by
  induction text generalizing s col with
  | nil =>
    cases ht
    exact ⟨nofun, fun _ _ => rfl⟩
  | cons c text ih =>
    obtain ⟨q, hq, hnext, -, -, -, hcell⟩ := h.exec_wdata c
    rw [wstr_cons, execList_cons, hq, andThen] at ht
    rw [List.length_cons] at hlen ⊢
    obtain ⟨hcodes, hother⟩ := ih hnext (by omega) ht
    have hcol (n : Nat) : (col + (n + 1)) % 40 = ((col + 1) % 40 + n) % 40 := by omega
    have hc := h.col_lt
    refine ⟨fun n hn => ?_, fun j hj => ?_⟩
    · cases n with
      | zero =>
        rw [hother _ fun n hn => by omega, hcell, if_pos (by omega), List.getD_cons_zero]
      | succ n =>
        rw [hcol, hcodes n (by omega), List.getD_cons_succ]
    · have hfirst : j ≠ 40 * l.val + col := by
        have := hj 0 (by omega)
        omega
      rw [hother j fun n hn => hcol n ▸ hj (n + 1) (by omega), hcell, if_neg hfirst]

/-! ### As many reads as writes -/

/-- Where `s` and `r` stand at one counter value with one direction, a data access moves both alike. -/
structure InStep (s r : State) : Prop where
  cfg : r.cfg = s.cfg
  ac : r.ac = s.ac
  mode : r.mode = s.mode
  id : r.id = s.id

/-- An instruction that uses the counter completes only at one that has a meaning (log 11). -/
theorem counterOk_of_exec {i : Instr} (hi : i.usesCounter = true) (h : exec i s = .next t) : s.CounterOk := by
  refine fun hm => Bool.of_not_eq_false fun hv => ?_
  rw [exec_eq_fault hm hv hi] at h
  cases h

/-- R145: a read follows a write. -/
theorem InStep.exec_rdata {r : State} {v : Byte} (h : InStep s r) (hw : exec (.wdata v) s = .next t) :
    ∃ o, exec .rdata r = .next ((r.setAc t.ac).drive o) ∧ InStep t ((r.setAc t.ac).drive o) := by
  obtain ⟨hcfg, hac, hmode, hid⟩ := h
  obtain ⟨a, ha, hframe⟩ := exec_wdata_frame hw
  have hcounter : r.CounterOk := by
    rw [State.CounterOk, hcfg, hac, hmode]
    exact counterOk_of_exec rfl hw
  obtain ⟨b, hb⟩ := exists_operand hcounter
  have hadv : adv r.cfg.raw r.ac r.mode r.entryDir = .ok t.ac := by
    rw [State.entryDir, hcfg, hac, hmode, hid, hframe]
    exact ha
  refine ⟨.dout b, execRdata_eq_next_iff.2 ⟨b, _, hb, hadv, rfl⟩, ?_⟩
  rw [hframe]
  exact ⟨hcfg, rfl, hmode, hid⟩

/-- R147 (c), by induction on the text: the reader keeps in step with the writer and changes only its counter. -/
theorem InStep.execList_rdata {r : State} {text : List Byte} (h : InStep s r)
    (hw : execList (wstr text) s = .next t) :
    ∃ o, execList (List.replicate text.length .rdata) r = .next ((r.setAc t.ac).drive o) := by
  induction text generalizing s r with
  | nil =>
    cases hw
    refine ⟨r.out, ?_⟩
    rw [← h.ac]
    rfl
  | cons c text ih =>
    obtain ⟨q, hq⟩ : Completes (exec (.wdata c) s) := by
      obtain ⟨-, -, -, hfault⟩ | ⟨-, hq⟩ := exec_cases (.wdata c) s
      · rw [wstr_cons, execList_cons, hfault] at hw
        cases hw
      · exact hq
    rw [wstr_cons, execList_cons, hq, andThen] at hw
    obtain ⟨o, hread, hstep⟩ := h.exec_rdata hq
    obtain ⟨o', hrest⟩ := ih hstep hw
    refine ⟨o', ?_⟩
    rw [List.length_cons, List.replicate_succ, execList_cons, hread]
    exact hrest

/-! ### The statements -/

/-- Settles O33: the one store is at the index of the counter's column, and the advance and the shift are neighbours
modulo 40. -/
theorem wdataWritesDisplayMemory : Obligations.WdataWritesDisplayMemory := by
  unfold Obligations.WdataWritesDisplayMemory
  intro s v l col hinv hm hc hac
  obtain ⟨⟨-, -, hsh⟩, hmem⟩ := hinv
  have hcell (j : Nat) := State.setDdram_write_ddCell hmem (40 * l.val + col) j v
  exact ⟨_, exec_wdata_of_lineAddr v hm hc hac (Nat.lt_succ_of_le hsh), (hcell _).trans (if_pos rfl),
    fun j hj => (hcell j).trans (if_neg hj), rfl, rfl, rfl⟩

/-- Settles O34: the one store is at the counter's value, and the advance is a neighbour modulo 64. -/
theorem wdataWritesGlyphMemory : Obligations.WdataWritesGlyphMemory := by
  unfold Obligations.WdataWritesGlyphMemory
  intro s v hinv hm
  obtain ⟨⟨-, hcounter, -⟩, hmem⟩ := hinv
  have hcell (j : Nat) := State.setCgram_write_cgCell hmem s.ac.toNat j v
  exact ⟨_, exec_wdata_of_cgram v hm (Nat.lt_succ_of_le (hcounter hm)), (hcell _).trans (if_pos rfl),
    fun j hj => (hcell j).trans (if_neg hj), rfl, rfl⟩

/-- Settles O35: operand and advance are both taken at the counter's value before the step, and the class of RDATA
leaves `DB` undecoded. -/
theorem rdataReadsThenAdvances : Obligations.RdataReadsThenAdvances := by
  unfold Obligations.RdataReadsThenAdvances
  refine fun s => ⟨fun l col hm hc hac => ?ddram, fun hm ha => ?cgram, fun db => ?word⟩
  case ddram =>
    exact execRdata_eq_next_iff.2 ⟨_, _, operand_of_lineAddr hm hc hac, adv_of_lineAddr hm hc hac, rfl⟩
  case cgram =>
    have hlt : s.ac.toNat < 64 := Nat.lt_succ_of_le ha
    exact execRdata_eq_next_iff.2 ⟨_, _, operand_of_cgram hm hlt, adv_of_cgram hm hlt, rfl⟩
  case word =>
    rw [runWord, decode_bus_append]
    rfl

/-- Settles O36: the byte is the counter below a clear bit 7. -/
theorem raddrReturnsTheCounter : Obligations.RaddrReturnsTheCounter := by
  unfold Obligations.RaddrReturnsTheCounter
  exact fun s => ⟨_, rfl, toNat_addressByte s.ac, addressByte_getLsbD_seven s.ac⟩

/-- Settles O37: both advance by `ADV` from one state, a read updates no more than that, and a write then shifts to a
neighbour of the offset, which is another offset. -/
theorem writesShiftTheViewportReadsNever : Obligations.WritesShiftTheViewportReadsNever := by
  unfold Obligations.WritesShiftTheViewportReadsNever
  intro s t u v ht hu
  obtain ⟨b, a, -, ha, rfl⟩ := execRdata_eq_next_iff.1 ht
  obtain ⟨a', ha', hframe⟩ := exec_wdata_frame hu
  obtain rfl : a = a' := Except.ok.inj (ha.symm.trans ha')
  have hush : u.sh = s.shiftOnWrite.sh := by rw [hframe]
  refine ⟨(congrArg State.ac hframe).symm, rfl, fun hs hm hle => ?_, fun hs => ?_⟩
  · have hlt : s.sh.toNat < 40 := Nat.lt_succ_of_le hle
    rw [hush, shiftOnWrite_of_ddram hm, State.setSh_sh, if_pos hs, shmove_entryDir hlt, ne_eq, ← BitVec.toNat_inj,
      toNat_ofNat_six (neighbour_lt (by omega) _ _)]
    exact neighbour_ne s.id _
  · rw [hush, State.shiftOnWrite, if_neg (by simp [hs])]

/-- Settles O38: column and offset move by the same step modulo 40. -/
theorem autoScrollKeepsTheCursorColumn : Obligations.AutoScrollKeepsTheCursorColumn := by
  unfold Obligations.AutoScrollKeepsTheCursorColumn
  intro s t v l col col' y hinv hm hs hc hc' hac ht hac'
  obtain ⟨q, hq, -, -, hqac, hqsh, -⟩ := wdataWritesDisplayMemory s v l col hinv hm hc hac
  obtain rfl : t = q := Host.Outcome.next.inj (ht.symm.trans hq)
  have hcol : col' = neighbour s.id 40 col :=
    (lineAddr_inj s.cfg l hc' (neighbour_lt (by omega) _ _)).1 (hac'.symm.trans hqac)
  have hsh : t.sh.toNat = neighbour s.id 40 s.sh.toNat := by
    rw [hqsh, if_pos hs, toNat_ofNat_six (neighbour_lt (by omega) _ _)]
  rw [hcol, hsh, neighbour, neighbour]
  split <;> omega

/-- Settles O40: a text is a program of well-formed instructions, and its words are theirs. -/
theorem writeStringIsWritesInOrder : Obligations.WriteStringIsWritesInOrder := by
  unfold Obligations.WriteStringIsWritesInOrder
  intro text s rest
  have hlen : (wstr text).length = text.length := List.length_map _
  have hwf : ∀ i ∈ wstr text, i.wellFormed = true := List.forall_mem_map.2 fun _ _ => rfl
  have hwords : assemble [.wstr text] = (wstr text).map encode := List.flatMap_singleton _ _
  have hrun := runIsTheInstructionsInOrder (wstr text) s rest hwf
  rw [hlen] at hrun
  rw [hwords]
  exact ⟨(List.length_map _).trans hlen, hrun⟩

/-- Settles O41, by induction on the text. -/
theorem manyWritesAdvanceInTheLine : Obligations.ManyWritesAdvanceInTheLine := by
  unfold Obligations.ManyWritesAdvanceInTheLine
  exact fun text s l col hinv hm hid hc hac => State.TypesAt.execList_wstr text ⟨hinv, hm, hid, hc, hac⟩

/-- Settles O42: a reader that starts where the writer does keeps in step with it. -/
theorem manyReadsMoveTheCounterAsWrites : Obligations.ManyReadsMoveTheCounterAsWrites := by
  unfold Obligations.ManyReadsMoveTheCounterAsWrites
  intro text s t _ ht
  obtain ⟨o, hread⟩ := InStep.execList_rdata ⟨rfl, rfl, rfl, rfl⟩ ht
  exact ⟨_, hread, rfl, rfl, fun _ _ => rfl, fun _ _ => rfl⟩

/-- Settles O43, by induction on the text. -/
theorem textLiesInTheLineItBeganIn : Obligations.TextLiesInTheLineItBeganIn := by
  unfold Obligations.TextLiesInTheLineItBeganIn
  exact fun text s t l col hinv hm hid hc hac hlen ht =>
    State.TypesAt.ddCell_of_execList_wstr ⟨hinv, hm, hid, hc, hac⟩ hlen ht

end Sys2Proof.Machine
end

section
/-! SUPPORT. The geometry queries (R155 to R158): the raster size by the formulas of the statements and the address of a
cell; and the screen window (R159): which instructions move it, and where. -/

namespace Sys2Proof

/-- R155 with the widths written out. -/
theorem RawConfig.npx_eq (c : RawConfig) : c.npx = c.w * (5 + c.gapX) - c.gapX := rfl

/-- R156 with the heights written out. -/
theorem RawConfig.npy_eq (c : RawConfig) : c.npy = c.h * (8 + c.gapY) - c.gapY := rfl

end Sys2Proof

namespace Sys2Proof.Machine

variable {s t : State}

/-! ### The screen window -/

/-- Forty columns to the right a line shows the same column (R63). -/
theorem cellAddr_add_forty (c : RawConfig) (sh : BitVec 6) (x y : Nat) :
    cellAddr c sh (x + 40) y = cellAddr c sh x y := by
  have hcol : ((c.row y).col0 + (x + 40) + sh.toNat) % 40 = ((c.row y).col0 + x + sh.toNat) % 40 := by omega
  rw [cellAddr_eq, cellAddr_eq, hcol]

/-- On every row a window moved by `n` columns shows at a cell what was `n` cells to its right. -/
theorem cellAddr_scroll (s : State) (n x y : Nat) :
    cellAddr (s.scroll n).cfg.raw (s.scroll n).sh x y = cellAddr s.cfg.raw s.sh (x + n) y := by
  have hcfg : (s.scroll n).cfg = s.cfg := rfl
  have hcol (a : Nat) : (a + x + (s.sh.toNat + n) % 40) % 40 = (a + (x + n) + s.sh.toNat) % 40 := by omega
  rw [cellAddr_eq, cellAddr_eq, hcfg, State.scroll_sh, hcol]

/-- Any other instruction leaves the viewport: the writers of `SH` (R20), read the other way round. -/
theorem sh_eq_of_exec {i : Instr} (h : exec i s = .next t) (hl : i ≠ .dspl) (hr : i ≠ .dspr) (hh : i ≠ .home)
    (hw : ∀ v, i = .wdata v → s.s = false ∨ s.mode = .cgram) : t.sh = s.sh := by
  obtain ⟨-, -, -, -, -, -, -, hwriters⟩ := eachItemHasOnlyItsWriters i s t h
  by_contra hne
  obtain hi | hi | hi | ⟨⟨v, hi⟩, hm, hs⟩ := hwriters hne
  · exact hl hi
  · exact hr hi
  · exact hh hi
  · simpa [hm, hs] using hw v hi

/-- A display shift that answered is a move of the window. -/
theorem eq_scroll_of_displayShift {dir : Dir} (hle : s.sh.toNat ≤ 39) (h : displayShift dir s = .next t) :
    t = s.scroll (windowStep dir) :=
  Host.Outcome.next.inj (h.symm.trans (displayShift_eq_scroll (Nat.lt_succ_of_le hle) dir))

/-! ### The statements -/

/-- Settles O47: a cell's address depends on the configuration and the viewport alone; DSPL moves the window by 1, and
DSPR by 39, which from one cell to the right is a whole turn. -/
theorem onlyShiftsMoveTheScreenWindow : Obligations.OnlyShiftsMoveTheScreenWindow := by
  unfold Obligations.OnlyShiftsMoveTheScreenWindow
  refine fun i s t x y h => ⟨fun hl hr hh hw => ?other, ?dspl, ?dspr⟩
  case other =>
    obtain ⟨hcfg, -⟩ := exec_sameHost h
    rw [hcfg, sh_eq_of_exec h hl hr hh hw]
  case dspl =>
    rintro rfl hle
    obtain rfl := eq_scroll_of_displayShift (dir := .inc) hle h
    exact ⟨rfl, cellAddr_scroll s 1 x y⟩
  case dspr =>
    rintro rfl hle
    obtain rfl := eq_scroll_of_displayShift (dir := .dec) hle h
    exact ⟨rfl, (cellAddr_scroll s 39 (x + 1) y).trans (cellAddr_add_forty s.cfg.raw s.sh x y)⟩

/-- Settles O44: both queries drive the size and nothing else, and a gap of 1 makes the pitches 6 and 9. -/
theorem rasterSizeQueries : Obligations.RasterSizeQueries := by
  unfold Obligations.RasterSizeQueries
  refine fun s => ⟨rfl, rfl, fun hgap => ?width, fun hgap => ?height⟩
  case width => rw [RawConfig.npx_eq, hgap, Nat.mul_comm]
  case height => rw [RawConfig.npy_eq, hgap, Nat.mul_comm]

/-- Settles O45: the two cases of QGEOM exclude each other, and a failure drives no value. -/
theorem geometryQueryAnswersOrFails : Obligations.GeometryQueryAnswersOrFails := by
  unfold Obligations.GeometryQueryAnswersOrFails
  intro s x y
  obtain ⟨hout, hq⟩ | ⟨hx, hy, hq⟩ := execQgeom_cases x y s
  · exact ⟨fun hx hy => by omega, fun _ => hq, rfl, rfl⟩
  · exact ⟨fun _ _ => hq, fun hout => by omega, rfl, rfl⟩

end Sys2Proof.Machine
end

section
/-! SUPPORT. The pixel output (R165 to R175): what each test of QPIX answers, which items a pixel depends on, queries before
another instruction, and a glyph drawn through CGRAM and placed at a screen cell (R174). -/

namespace Sys2Proof.Machine

variable {s t : State}

/-! ### The pixel of one cell -/

/-- The character code a screen cell shows (R63, R165). -/
def State.cellCode (s : State) (cx cy : Nat) : Byte :=
  s.ddCell (40 * (s.cfg.raw.row cy).line.val + ((s.cfg.raw.row cy).col0 + cx + s.sh.toNat) % 40)

/-- The pixel is ON: the display is on, and the glyph bit or the cursor is (R165, R169). -/
def State.lit (s : State) (cx cy : Nat) (ix : Fin 5) (iy : Fin 8) (bp : Bool) : Bool :=
  s.d && (s.glyphBit (s.cellCode cx cy) ix iy || s.cursorAt (cellAddr s.cfg.raw s.sh cx cy) iy bp)

/-- A screen cell shows a valid address, so its read answers (R63). -/
theorem memRead_cellAddr (s : State) (cx cy : Nat) :
    s.memRead .dd (cellAddr s.cfg.raw s.sh cx cy) = .ok (s.cellCode cx cy) :=
  memRead_dd_of_idx (idx_lineAddr s.cfg _ (Nat.mod_lt _ (Nat.zero_lt_succ 39)))

theorem cellPixel_eq (s : State) (cx cy : Nat) (ix : Fin 5) (iy : Fin 8) (bp : Bool) :
    s.cellPixel cx cy ix iy bp = .ok (if s.lit cx cy ix iy bp then .on else .off) := by
  rw [State.cellPixel, State.lit]
  cases s.d with
  | false => rfl
  | true => simp [memRead_cellAddr]

/-- GLYPH_BIT: codes 0..7 read CGRAM, every other code the glyph table (R167, R168). -/
theorem glyphBit_eq_true_iff {code : Byte} {ix : Fin 5} {iy : Fin 8} :
    s.glyphBit code ix iy = true ↔
      (code.toNat ≤ 7 ∧ (s.cgCell (8 * code.toNat + iy.val)).getLsbD (4 - ix.val) = true) ∨
      (8 ≤ code.toNat ∧ Config.romPix s.cfg.raw.rom code ix iy = true) := by
  have hle : code ≤ 0x07#8 ↔ code.toNat ≤ 7 := BitVec.le_def
  rw [State.glyphBit]
  by_cases h : code.toNat ≤ 7
  · have h8 : ¬ 8 ≤ code.toNat := by omega
    simp [hle, h, h8]
  · have h8 : 8 ≤ code.toNat := by omega
    simp [hle, h, h8]

/-- CURSOR_AT, spelled out (R171, R172). -/
theorem cursorAt_eq_true_iff {a : Addr} {iy : Fin 8} {bp : Bool} :
    s.cursorAt a iy bp = true ↔
      s.c = true ∧ s.mode = .ddram ∧ s.ac = a ∧ iy.val = 7 ∧ (s.b = false ∨ bp = true) := by
  simp [State.cursorAt, and_assoc, eq_comm (a := a)]

theorem cursorAt_of_cursor_off (h : s.c = false) (a : Addr) (iy : Fin 8) (bp : Bool) : s.cursorAt a iy bp = false := by
  simp [State.cursorAt, h]

/-! ### The raster tests -/

theorem pixelAt_of_outside {px py : Nat} (h : s.cfg.raw.npx ≤ px ∨ s.cfg.raw.npy ≤ py) (bp : Bool) :
    s.pixelAt px py bp = .ok .none := by
  rw [State.pixelAt, if_pos h]

theorem pixelAt_of_gap {px py : Nat} (h : 5 ≤ px % s.cfg.raw.pitchX ∨ 8 ≤ py % s.cfg.raw.pitchY) (bp : Bool) :
    s.pixelAt px py bp = .ok .none := by
  have hgap : ¬ (px % s.cfg.raw.pitchX < 5 ∧ py % s.cfg.raw.pitchY < 8) := by omega
  rw [State.pixelAt, dif_neg hgap, ite_self]

/-- In one direction: pixel `i` of cell `c` of `n` lies in the raster, and the pitch takes it apart again (R166). -/
theorem cell_coordinate {size gap n c i : Nat} (hc : c < n) (hi : i < size) :
    (size + gap) * c + i < n * (size + gap) - gap ∧ ((size + gap) * c + i) / (size + gap) = c ∧
      ((size + gap) * c + i) % (size + gap) = i := by
  have hi' : i < size + gap := by omega
  refine ⟨?_, ?_, ?_⟩
  · have hcells : (size + gap) * (c + 1) ≤ n * (size + gap) := by
      rw [Nat.mul_comm n]
      exact Nat.mul_le_mul_left _ hc
    rw [Nat.mul_succ] at hcells
    omega
  · rw [Nat.mul_add_div (by omega), Nat.div_eq_of_lt hi', Nat.add_zero]
  · rw [Nat.mul_add_mod, Nat.mod_eq_of_lt hi']

theorem pixelAt_of_cell {cx cy : Nat} (hx : cx < s.cfg.raw.w) (hy : cy < s.cfg.raw.h) (ix : Fin 5) (iy : Fin 8)
    (bp : Bool) :
    s.pixelAt ((5 + s.cfg.raw.gapX) * cx + ix.val) ((8 + s.cfg.raw.gapY) * cy + iy.val) bp =
      .ok (if s.lit cx cy ix iy bp then .on else .off) := by
  obtain ⟨hpx, hdivx, hmodx⟩ := cell_coordinate (gap := s.cfg.raw.gapX) hx ix.isLt
  obtain ⟨hpy, hdivy, hmody⟩ := cell_coordinate (gap := s.cfg.raw.gapY) hy iy.isLt
  rw [← cellPixel_eq]
  simp only [State.pixelAt, RawConfig.npx_eq, RawConfig.npy_eq, RawConfig.pitchX, RawConfig.pitchY, glyphW, glyphH,
    hdivx, hmodx, hdivy, hmody]
  rw [if_neg (by omega), dif_pos ⟨ix.isLt, iy.isLt⟩]

/-- QPIX drives the pixel and changes nothing else. -/
theorem exec_qpix_of_pixelAt {px py : Nat} {bp : Bool} {p : Pixel} (h : s.pixelAt px py bp = .ok p) :
    exec (.qpix px py bp) s = .next (s.drive (.pixel p)) := by
  rw [exec, execQpix, h, withOk_ok]

/-! ### What a pixel depends on -/

/-- The raster tests read the configuration and the coordinate only (R170). -/
theorem pixelAt_congr {bp bp' : Bool} (hcfg : t.cfg = s.cfg)
    (h : ∀ cx cy ix iy, t.lit cx cy ix iy bp' = s.lit cx cy ix iy bp) (px py : Nat) :
    t.pixelAt px py bp' = s.pixelAt px py bp := by
  simp only [State.pixelAt, cellPixel_eq, hcfg, h]

/-- The blink phase is read only under a set `B`, and only with display and cursor on in DDRAM mode (R169, R171, R172). -/
theorem lit_phase (h : s.c = false ∨ s.b = false ∨ s.d = false ∨ s.mode = .cgram) (cx cy : Nat) (ix : Fin 5)
    (iy : Fin 8) (bp bp' : Bool) : s.lit cx cy ix iy bp' = s.lit cx cy ix iy bp := by
  rw [State.lit, State.lit]
  obtain hc | hb | hd | hm := h
  · rw [cursorAt_of_cursor_off hc, cursorAt_of_cursor_off hc]
  · rw [State.cursorAt, State.cursorAt, hb]
    rfl
  · rw [hd, Bool.false_and, Bool.false_and]
  · rw [cursorAt_of_cgram hm, cursorAt_of_cgram hm]

/-- Every cell shows one of the 80 bytes (R34). -/
theorem cellCode_congr (hcfg : t.cfg = s.cfg) (hsh : t.sh = s.sh) (hdd : ∀ i, i < 80 → t.ddCell i = s.ddCell i)
    (cx cy : Nat) : t.cellCode cx cy = s.cellCode cx cy := by
  have hl := (s.cfg.raw.row cy).line.isLt
  rw [State.cellCode, State.cellCode, hcfg, hsh]
  exact hdd _ (by omega)

/-- Every custom glyph lies in the 64 bytes of CGRAM (R35, R167). -/
theorem glyphBit_congr (hcfg : t.cfg = s.cfg) (hcg : ∀ i, i < 64 → t.cgCell i = s.cgCell i) (code : Byte) (ix : Fin 5)
    (iy : Fin 8) : t.glyphBit code ix iy = s.glyphBit code ix iy := by
  rw [Bool.eq_iff_iff, glyphBit_eq_true_iff, glyphBit_eq_true_iff, hcfg]
  refine or_congr_left (and_congr_right fun hle => ?_)
  rw [hcg _ (by omega)]

/-- R173, for one cell. -/
theorem lit_congr (hcfg : t.cfg = s.cfg) (h : SameEngine s t) (cx cy : Nat) (ix : Fin 5) (iy : Fin 8) (bp : Bool) :
    t.lit cx cy ix iy bp = s.lit cx cy ix iy bp := by
  obtain ⟨⟨hdd, hcg⟩, ⟨hac, hmode⟩, ⟨-, -, hd, hc, hb⟩, hsh⟩ := h
  rw [State.lit, State.lit, cellCode_congr hcfg hsh hdd, glyphBit_congr hcfg hcg]
  simp only [State.cursorAt, hcfg, hac, hmode, hd, hc, hb, hsh]

/-! ### Sequences -/

theorem execList_append (is js : List Instr) (s : State) :
    execList (is ++ js) s = andThen (execList is s) (execList js) := by
  induction is generalizing s with
  | nil => rfl
  | cons i is ih =>
    rw [List.cons_append, execList_cons, execList_cons]
    cases exec i s with
    | next t => exact ih t
    | fault f => rfl
    | refused r => rfl

/-- Instructions that only drive leave no trace in the result of a later one (R40). -/
theorem execList_onlyDrives_append {is : List Instr} (h : ∀ i ∈ is, i.onlyDrives = true) (later : Instr) (s : State) :
    execList (is ++ [later]) s = exec later s := by
  induction is generalizing s with
  | nil => exact execList_singleton later s
  | cons i is ih =>
    obtain ⟨hi, his⟩ := List.forall_mem_cons.1 h
    obtain ⟨o, ho⟩ := exists_exec_eq_drive hi s
    rw [List.cons_append, execList_cons, ho, andThen, ih his, exec_drive]

/-! ### A glyph drawn through CGRAM -/

/-- `t` is `s` but for glyph memory, the counter and the output: all that a text written in CGRAM mode changes. -/
def DrawnFrom (s t : State) : Prop := t = { s with cgram := t.cgram, ac := t.ac, out := t.out }

theorem DrawnFrom.trans {u : State} (h : DrawnFrom s t) (h' : DrawnFrom t u) : DrawnFrom s u := by
  unfold DrawnFrom at *
  rw [h', h]

/-- One row byte of a glyph, with increment. -/
theorem exec_wdata_draws (hinv : s.Inv) (hm : s.mode = .cgram) (hid : s.id = true) (v : Byte) :
    ∃ q, exec (.wdata v) s = .next q ∧ q.Inv ∧ DrawnFrom s q ∧ q.ac.toNat = (s.ac.toNat + 1) % 64 ∧
      q.cgCell s.ac.toNat = v ∧ ∀ j, j ≠ s.ac.toNat → q.cgCell j = s.cgCell j := by
  obtain ⟨q, hq, hstore, hother, hac, hframe⟩ := wdataWritesGlyphMemory s v hinv hm
  refine ⟨q, hq, (effect_of_exec hq).keeps_inv hinv, ?_, ?_, hstore, hother⟩
  · rw [DrawnFrom, hframe]
  · rw [hac, toNat_ofNat_of_lt_64 (neighbour_lt (by omega) _ _), neighbour, if_pos hid]

/-- By induction on the text: at most 63 bytes follow the first, so none of them reaches its address again. -/
theorem execList_wstr_draws {text : List Byte} (hinv : s.Inv) (hm : s.mode = .cgram) (hid : s.id = true)
    (hlen : text.length ≤ 64) :
    ∃ t, execList (wstr text) s = .next t ∧ t.Inv ∧ DrawnFrom s t ∧
      (∀ n, n < text.length → t.cgCell ((s.ac.toNat + n) % 64) = text.getD n 0) ∧
      (∀ j, (∀ n, n < text.length → j ≠ (s.ac.toNat + n) % 64) → t.cgCell j = s.cgCell j) := by
  induction text generalizing s with
  | nil => exact ⟨s, rfl, hinv, rfl, nofun, fun _ _ => rfl⟩
  | cons c text ih =>
    obtain ⟨q, hq, hqinv, hdrawn, hac, hstore, hkept⟩ := exec_wdata_draws hinv hm hid c
    rw [List.length_cons] at hlen ⊢
    have hqm : q.mode = .cgram := by rw [hdrawn]; exact hm
    have hqid : q.id = true := by rw [hdrawn]; exact hid
    obtain ⟨t, ht, htinv, hrest, hrows, hother⟩ := ih hqinv hqm hqid (by omega)
    have hlt : s.ac.toNat < 64 := Nat.lt_succ_of_le (hinv.1.2.1 hm)
    have hnext (n : Nat) : (s.ac.toNat + (n + 1)) % 64 = (q.ac.toNat + n) % 64 := by omega
    refine ⟨t, ?_, htinv, hdrawn.trans hrest, fun n hn => ?_, fun j hj => ?_⟩
    · rw [wstr_cons, execList_cons, hq]
      exact ht
    · cases n with
      | zero =>
        rw [Nat.add_zero, Nat.mod_eq_of_lt hlt, hother _ fun n hn => by omega, hstore, List.getD_cons_zero]
      | succ n => rw [hnext, hrows n (by omega), List.getD_cons_succ]
    · have hfirst : j ≠ s.ac.toNat := by
        have := hj 0 (by omega)
        omega
      rw [hother j fun n hn => hnext n ▸ hj (n + 1) (by omega), hkept j hfirst]

/-- SETCG of the first address of slot `k`, then the eight rows: row `n` of the slot holds row byte `n` (R101, R167). -/
theorem execList_setcg_wstr {k : Nat} {rows : List Byte} (hinv : s.Inv) (hid : s.id = true) (hk : k < 8)
    (hlen : rows.length = 8) :
    ∃ t, execList (.setcg (BitVec.ofNat 6 (8 * k)) :: wstr rows) s = .next t ∧ t.Inv ∧ t.cfg = s.cfg ∧
      SameFlags s t ∧ t.sh = s.sh ∧ ∀ iy : Fin 8, t.cgCell (8 * k + iy.val) = rows.getD iy.val 0 := by
  have hset : exec (.setcg (BitVec.ofNat 6 (8 * k))) s =
      .next ((s.point .cgram (zext7 (BitVec.ofNat 6 (8 * k)))).drive .undriven) := rfl
  have hac : (zext7 (BitVec.ofNat 6 (8 * k))).toNat = 8 * k := by
    rw [toNat_zext7, BitVec.toNat_ofNat, Nat.mod_eq_of_lt (by omega)]
  obtain ⟨t, ht, htinv, hdrawn, hrows, -⟩ := execList_wstr_draws (text := rows)
    ((effect_of_exec hset).keeps_inv hinv) rfl hid (by omega)
  refine ⟨t, ?_, htinv, ?_, ?_, ?_, fun iy => ?_⟩
  · rw [execList_cons, hset]
    exact ht
  · rw [hdrawn]; rfl
  · rw [hdrawn]; exact ⟨rfl, rfl, rfl, rfl, rfl⟩
  · rw [hdrawn]; rfl
  · have hrow := hrows iy.val (by omega)
    rw [State.drive_ac, State.point_ac, hac, Nat.mod_eq_of_lt (by omega)] at hrow
    exact hrow

/-- SETDD of a screen cell's address, then a code: without shift on write the cell shows the code (R63, R100, R140). -/
theorem execList_setdd_wdata (hinv : s.Inv) (hs : s.s = false) (cx cy : Nat) (v : Byte) :
    ∃ t, execList [.setdd (cellAddr s.cfg.raw s.sh cx cy), .wdata v] s = .next t ∧ t.cellCode cx cy = v ∧
      t.cfg = s.cfg ∧ SameFlags s t ∧ ∀ i, t.cgCell i = s.cgCell i := by
  have hcol : ((s.cfg.raw.row cy).col0 + cx + s.sh.toNat) % 40 < 40 := Nat.mod_lt _ (by omega)
  have hset : exec (.setdd (cellAddr s.cfg.raw s.sh cx cy)) s =
      .next ((s.point .ddram (cellAddr s.cfg.raw s.sh cx cy)).drive .undriven) := by
    rw [exec, execSetdd, normDd_of_validDd s.cfg]
    exact validDd_lineAddr s.cfg _ hcol
  obtain ⟨t, ht, hcode, -, -, hsh, hframe⟩ := wdataWritesDisplayMemory _ v _ _
    ((effect_of_exec hset).keeps_inv hinv) rfl hcol rfl
  have htsh : t.sh = s.sh := hsh.trans (if_neg (by simp [hs]))
  have htcfg : t.cfg = s.cfg := by rw [hframe]; rfl
  refine ⟨t, ?_, ?_, htcfg, ?_, fun i => ?_⟩
  · rw [execList_cons, hset, andThen, execList_singleton, ht]
  · rw [State.cellCode, htcfg, htsh]
    exact hcode
  · rw [hframe]; exact ⟨rfl, rfl, rfl, rfl, rfl⟩
  · rw [hframe]; rfl

/-- With the cursor off, a cell that shows custom code `k` is lit as the rows of slot `k` say (R167). -/
theorem lit_of_custom_code {k cx cy : Nat} (hd : s.d = true) (hc : s.c = false) (hk : k < 8)
    (hcode : s.cellCode cx cy = BitVec.ofNat 8 k) (ix : Fin 5) (iy : Fin 8) (bp : Bool) :
    s.lit cx cy ix iy bp = (s.cgCell (8 * k + iy.val)).getLsbD (4 - ix.val) := by
  have hnum : (BitVec.ofNat 8 k).toNat = k := by rw [BitVec.toNat_ofNat, Nat.mod_eq_of_lt (by omega)]
  have hlow : k ≤ 7 := by omega
  rw [State.lit, hd, cursorAt_of_cursor_off hc, hcode, Bool.true_and, Bool.or_false, Bool.eq_iff_iff,
    glyphBit_eq_true_iff, hnum]
  simp [hlow, hk]

/-! ### The statements -/

/-- Settles O48: outside the raster, in a gap, and in a cell, where ON is `lit`. -/
theorem pixelQueryFollowsItsTests : Obligations.PixelQueryFollowsItsTests := by
  unfold Obligations.PixelQueryFollowsItsTests
  refine fun s bp => ⟨fun px py h => ?outside, fun px py h => ?gap, fun cx cy ix iy hx hy => ?cell⟩
  case outside => exact exec_qpix_of_pixelAt (pixelAt_of_outside h bp)
  case gap => exact exec_qpix_of_pixelAt (pixelAt_of_gap h bp)
  case cell =>
    refine ⟨_, exec_qpix_of_pixelAt (pixelAt_of_cell hx hy ix iy bp), fun hd => ?_, ?_⟩
    · simp [State.lit, hd]
    · rintro hd l col code rfl rfl rfl
      have hlit : s.lit cx cy ix iy bp = true ↔
          s.glyphBit (s.cellCode cx cy) ix iy = true ∨
            s.cursorAt (cellAddr s.cfg.raw s.sh cx cy) iy bp = true := by
        rw [State.lit, hd, Bool.true_and, Bool.or_eq_true]
      rw [glyphBit_eq_true_iff, cursorAt_eq_true_iff, or_assoc] at hlit
      refine ⟨Iff.trans ?_ hlit, ?_⟩
      · cases s.lit cx cy ix iy bp <;> simp
      · split <;> simp

/-- Settles O49: no cell reads the phase then, and the raster tests never do. -/
theorem blinkPhaseMattersOnlyWhileBlinking : Obligations.BlinkPhaseMattersOnlyWhileBlinking := by
  unfold Obligations.BlinkPhaseMattersOnlyWhileBlinking
  intro s px py bp bp' h
  obtain ⟨p, hp, hq⟩ := exists_execQpix s px py bp
  have hphase := pixelAt_congr rfl (fun cx cy ix iy => lit_phase h cx cy ix iy bp bp') px py
  exact hq.trans (exec_qpix_of_pixelAt (hphase.trans hp)).symm

/-- Settles O50: both states have one pixel, and a query before it only drives. -/
theorem pixelQueryIsPure : Obligations.PixelQueryIsPure := by
  unfold Obligations.PixelQueryIsPure
  intro s t px py bp hcfg h
  obtain ⟨p, hp, hq⟩ := exists_execQpix s px py bp
  have hpt := (pixelAt_congr hcfg (fun cx cy ix iy => lit_congr hcfg h cx cy ix iy bp) px py).trans hp
  have hqt : exec (.qpix px py bp) t = .next (t.drive (.pixel p)) := exec_qpix_of_pixelAt hpt
  refine ⟨p, hq, hqt, fun j hj => ?_⟩
  have hdrives : j.onlyDrives = true := by
    obtain rfl | rfl | rfl | ⟨x, y, rfl⟩ | ⟨x, y, bp', rfl⟩ := hj <;> rfl
  exact (execList_onlyDrives_append (is := [j]) (by simpa using hdrives) _ t).trans hqt

/-- Settles O51: QUPD drives nothing, and any number of it before an instruction only drives. -/
theorem qupdChangesNothing : Obligations.QupdChangesNothing := by
  unfold Obligations.QupdChangesNothing
  refine fun s => ⟨rfl, rfl, rfl, fun n later => execList_onlyDrives_append (fun i hi => ?_) later s⟩
  rw [List.eq_of_mem_replicate hi]
  rfl

/-- Settles O52: the rows land in slot `k`, the code lands in the cell, and neither undoes the other. -/
theorem customGlyphShowsItsPattern : Obligations.CustomGlyphShowsItsPattern := by
  unfold Obligations.CustomGlyphShowsItsPattern
  intro s k cx cy rows hinv hd hc hid hs hk hlen hx hy
  obtain ⟨u, hu, huinv, hucfg, ⟨-, hus, hud, huc, -⟩, hush, hrows⟩ := execList_setcg_wstr hinv hid hk hlen
  obtain ⟨t, ht, hcode, htcfg, ⟨-, -, htd, htc, -⟩, hcg⟩ :=
    execList_setdd_wdata huinv (hus.trans hs) cx cy (BitVec.ofNat 8 k)
  rw [hucfg, hush] at ht
  have hcfg : t.cfg = s.cfg := htcfg.trans hucfg
  refine ⟨t, ?_, fun ix iy bp => ?_⟩
  · rw [← List.cons_append, execList_append, hu]
    exact ht
  · rw [← hcfg] at hx hy ⊢
    have hlit := lit_of_custom_code (htd.trans (hud.trans hd)) (htc.trans (huc.trans hc)) hk hcode ix iy bp
    rw [hcg, hrows] at hlit
    have hpix := exec_qpix_of_pixelAt (pixelAt_of_cell hx hy ix iy bp)
    rw [hlit] at hpix
    exact hpix

end Sys2Proof.Machine
end

section
/-! SUPPORT. The two conditions (R185 to R187), that a presented word always completes under the invariant (R203), and what
the host can see right after reset (R205, R206). -/

namespace Sys2Proof.Machine

variable {s t : State}

/-! ### A presented word completes -/

/-- Only the counter's meaning is needed: a word that decodes to no instruction is answered as a reserved query (R82, R87). -/
theorem completes_runWord (h : s.CounterOk) (w : PortWord) : Completes (runWord w s) := by
  rw [runWord]
  cases decode w with
  | ok i => exact completes_exec fun _ => h
  | error e => exact ⟨_, rfl⟩

/-- The words still to come do not matter for completion. -/
theorem completes_step {w : PortWord} {rest : List PortWord} (h : s.CounterOk) (hw : s.inbox = w :: rest) :
    Completes (step s) := by
  obtain ⟨t, ht⟩ := completes_runWord (s := s.take rest) h w
  exact ⟨t, (step_eq_next_iff s t).2 ⟨w, rest, hw, ht⟩⟩

/-! ### OutOfRange -/

/-- R187: only QGEOM drives the condition, and only where its cell is off the screen. -/
theorem exec_out_eq_outOfRange_iff {i : Instr} (h : exec i s = .next t) :
    t.out = .failed .outOfRange ↔ ∃ x y, i = .qgeom x y ∧ (s.cfg.raw.w ≤ x ∨ s.cfg.raw.h ≤ y) := by
  cases i with
  | setdd | setcg | rsvd5 | dspl | dspr | dispctl | entry | home | clear | nop | raddr | qnpx | qnpy | qupd =>
    cases h
    simp
  | curl | curr =>
    obtain ⟨a, -, rfl⟩ := cursorShift_eq_next_iff.1 h
    simp
  | rdata =>
    obtain ⟨v, a, -, -, rfl⟩ := execRdata_eq_next_iff.1 h
    simp
  | wdata v =>
    obtain ⟨q, a, -, -, rfl⟩ := execWdata_eq_next h
    simp
  | qpix px py bp =>
    obtain ⟨p, -, hq⟩ := exists_execQpix s px py bp
    cases hq.symm.trans h
    simp
  | qgeom x y =>
    obtain ⟨hout, hq⟩ | ⟨hx, hy, hq⟩ := execQgeom_cases x y s
    · cases hq.symm.trans h
      exact ⟨fun _ => ⟨x, y, rfl, hout⟩, fun _ => rfl⟩
    · cases hq.symm.trans h
      simp [hx, hy]

/-! ### Construction -/

theorem create_of_not_wellFormed {raw : RawConfig} (h : ¬ raw.wellFormed = true) :
    create raw = .error .invalidDimensions := by
  rw [create, dif_neg h]

/-! ### The outputs right after reset -/

/-- The counter of a new engine is at the first column of line 0 (R51). -/
theorem init_ac_eq_lineAddr (k : Config) : (State.init k).ac = lineAddr k.raw 0 0 := by
  rw [State.init_ac, lineAddr, RawConfig.lineBase_zero, k.tables.1]
  rfl

/-- With the display off the raster shows OFF in every glyph and NONE in every gap (R165, R166, R169). -/
theorem pixelAt_of_display_off (hd : s.d = false) {px py : Nat} (hx : px < s.cfg.raw.npx) (hy : py < s.cfg.raw.npy)
    (bp : Bool) :
    s.pixelAt px py bp = .ok (if px % s.cfg.raw.pitchX < 5 ∧ py % s.cfg.raw.pitchY < 8 then .off else .none) := by
  have hin : ¬ (s.cfg.raw.npx ≤ px ∨ s.cfg.raw.npy ≤ py) := by omega
  rw [State.pixelAt, if_neg hin]
  split
  · rw [State.cellPixel, if_pos hd]
  · rfl

/-! ### The statements -/

/-- Settles O6: the invariant gives the counter a meaning, so the word completes; a step that completes has taken one word
and kept the configuration. -/
theorem presentedWordsAlwaysComplete : Obligations.PresentedWordsAlwaysComplete := by
  unfold Obligations.PresentedWordsAlwaysComplete
  rintro s w rest ⟨⟨hcounter, -, -⟩, -⟩ hw
  obtain ⟨t, ht⟩ := completes_step hcounter hw
  obtain ⟨hcfg, w', hw'⟩ := configurationNeverChanges.2 s t ht
  obtain ⟨-, hrest⟩ := List.cons.inj (hw'.symm.trans hw)
  exact ⟨t, ht, hrest, hcfg⟩

/-- Settles O46: QGEOM, failed or not, only drives, and what was driven is not read. -/
theorem onlyQgeomRaisesOutOfRange : Obligations.OnlyQgeomRaisesOutOfRange := by
  unfold Obligations.OnlyQgeomRaisesOutOfRange
  refine fun i s t h => ⟨exec_out_eq_outOfRange_iff h, fun hout => ?_⟩
  obtain ⟨x, y, rfl, -⟩ := (exec_out_eq_outOfRange_iff h).1 hout
  obtain ⟨o, ho⟩ := exists_exec_eq_drive (i := .qgeom x y) rfl s
  obtain rfl := Host.Outcome.next.inj (h.symm.trans ho)
  exact ⟨rfl, fun j => exec_drive j s o⟩

/-- Settles O2: each bound is part of the check, and an engine carries the proof of the check. -/
theorem illFormedConfigurationGivesNoEngine : Obligations.IllFormedConfigurationGivesNoEngine := by
  unfold Obligations.IllFormedConfigurationGivesNoEngine
  refine ⟨fun raw h => ?_, fun raw hbound => create_of_not_wellFormed fun h => ?_, fun s => s.cfg.ok⟩
  · exact create_of_not_wellFormed (Bool.eq_false_iff.1 h)
  · obtain ⟨hw, hw', hh, hh', -, -⟩ := Config.dimensions ⟨raw, h⟩
    dsimp only at hw hw' hh hh'
    omega

/-- Settles O53: the counter is at the first column, the window is not shifted, and the display is off. -/
theorem whatCanBeSeenAfterReset : Obligations.WhatCanBeSeenAfterReset := by
  unfold Obligations.WhatCanBeSeenAfterReset
  refine fun k => ⟨?raddr, ?rdata, ?qgeom, fun px py bp hx hy => ?qpix⟩
  case raddr =>
    have hbyte : addressByte 0 = 0x00#8 := by decide
    rw [← hbyte]
    rfl
  case rdata =>
    obtain ⟨hread, -, -⟩ := rdataReadsThenAdvances (State.init k)
    have hnext : lineAddr k.raw 0 (neighbour true 40 0) = 0x01#7 := by
      rw [lineAddr, RawConfig.lineBase_zero, k.tables.1]
      rfl
    rw [← hnext]
    exact hread 0 0 rfl (by decide) (init_ac_eq_lineAddr k)
  case qgeom =>
    obtain ⟨hw, -, hh, -⟩ := k.dimensions
    obtain ⟨hcell, -⟩ := geometryQueryAnswersOrFails (State.init k) 0 0
    have hcol : ((k.raw.row 0).col0 + 0 + 0) % 40 = (k.raw.row 0).col0 := Nat.mod_eq_of_lt (k.row_col0_lt hh)
    rw [← hcol]
    exact hcell hw hh
  case qpix => exact exec_qpix_of_pixelAt (pixelAt_of_display_off rfl hx hy bp)

/-- Settles O1: the engine `create` answers is `State.init`, whose items are the reset values. -/
theorem constructionGivesTheResetState : Obligations.ConstructionGivesTheResetState := by
  unfold Obligations.ConstructionGivesTheResetState
  intro raw h
  refine ⟨State.init ⟨raw, h⟩, create_eq_ok_iff.2 ⟨h, rfl⟩, rfl, fun i _ => ?ddram, fun i _ => ?cgram,
    rfl, rfl, rfl, rfl, rfl, rfl, rfl, rfl⟩
  case ddram => exact State.init_ddCell ⟨raw, h⟩ i
  case cgram => exact State.init_cgCell ⟨raw, h⟩ i

end Sys2Proof.Machine
end
